-- ==== Sys2Proof/Word.lean ====
section
/-! DEFINITION. The word types of the LZW dictionary-table block (spec rules R12, R13, R52, R71). -/

namespace Sys2Proof

/-- A byte, an integer in `0..255` (R13). -/
abbrev Byte := BitVec 8

/-- A code as commands, the wire and the entry store carry it: 16 bits (R52, R53). -/
abbrev Code := BitVec 16

/-- A host command: always one 32-bit word (R70). An integer, with no byte order inside the block (R57). -/
abbrev CommandWord := BitVec 32

/-- The scalar field of a response, and the width every register is read at (R80, R181). -/
abbrev Value := BitVec 32

end Sys2Proof
end

