-- ==== Sys2Proof/Syntax.lean ====
section
/-! DEFINITION. The commands of the block: one constructor per row of spec/opcode_table.json (R74; `TBL_LOOKUP` has two
operand forms and so two rows). -/

namespace Sys2Proof

/-- A command, with its operands as the fields of the word hold them (R71, R72). -/
inductive Instr where
  /-- `TBL_RESET`: reset the table and abandon any run (R101). -/
  | tblReset
  /-- `TBL_LOOKUP b` (`P = 0`): look up the candidate `[b]` (R102). -/
  | tblLookup (b : Byte)
  /-- `TBL_LOOKUP p, b` (`P = 1`): look up the candidate `STR(p) ++ [b]` (R102). -/
  | tblLookupPrefix (p : Code) (b : Byte)
  /-- `TBL_LEARN p, b`: insert `STR(p) ++ [b]` below capacity (R103). -/
  | tblLearn (p : Code) (b : Byte)
  /-- `TBL_RESOLVE c`: the string of a code (R104). -/
  | tblResolve (c : Code)
  /-- `ENC_START`: begin an encode run (R131). -/
  | encStart
  /-- `ENC_BYTE b`: consume one input byte (R132). -/
  | encByte (b : Byte)
  /-- `ENC_FLUSH`: end of input (R133). -/
  | encFlush
  /-- `DEC_START`: begin a decode run (R151). -/
  | decStart
  /-- `DEC_CODE c`: consume one code (R152). -/
  | decCode (c : Code)
  /-- `DEC_END`: end of the code stream (R154). -/
  | decEnd
  /-- `REG_READ r`: read register `r` (R180). -/
  | regRead (r : Byte)
  deriving DecidableEq, Repr

end Sys2Proof
end

