-- ==== Sys2Proof/WellFormed.lean ====
section
/-! DEFINITION. Which commands have a legal word (R75). The operand widths are in the types; the one value constraint left
is the register index of `REG_READ`. -/

namespace Sys2Proof

/-- A well-formed command: every term is, but a `REG_READ` of a reserved index `10..255` (R75, R181). -/
def Instr.WellFormed : Instr → Bool
  | .regRead r => decide (r.toNat ≤ 9)
  | .tblReset | .tblLookup _ | .tblLookupPrefix _ _ | .tblLearn _ _ | .tblResolve _ => true
  | .encStart | .encByte _ | .encFlush => true
  | .decStart | .decCode _ | .decEnd => true

end Sys2Proof
end

