-- ==== Sys2Proof/Decode.lean ====
section
/-! DEFINITION. From a 32-bit command word to a command or a named rejection, and back (R70 to R76, R84). -/

namespace Sys2Proof

/-- The fields of the one word format `F0` (R71). -/
structure Fields where
  /-- `OP`, bits 31..28. -/
  op   : BitVec 4
  /-- `RSV`, bits 27..25. -/
  rsv  : BitVec 3
  /-- `P`, bit 24. -/
  p    : BitVec 1
  /-- `CODE16`, bits 23..8. -/
  code : Code
  /-- `BYTE8`, bits 7..0. -/
  byte : Byte
  deriving DecidableEq, Repr

/-- The fields of a word (R71). -/
def fieldsOf (w : CommandWord) : Fields :=
  { op   := w.extractLsb' 28 4
    rsv  := w.extractLsb' 25 3
    p    := w.extractLsb' 24 1
    code := w.extractLsb' 8 16
    byte := w.extractLsb' 0 8 }

/-- The word that holds given fields, bit 31 first `oooo rrr p cccccccccccccccc bbbbbbbb` (R71). -/
def packFields (f : Fields) : CommandWord :=
  f.op ++ f.rsv ++ f.p ++ f.code ++ f.byte

/-- Why a word is no command. Each of these is answered `ILLEGAL_COMMAND` (R75, R76). -/
inductive Reject where
  /-- `OP` is `0x0` or `0xC`..`0xF` (R76). -/
  | reservedOpcode
  /-- `RSV != 0` (R75). -/
  | reservedBits
  /-- A field the opcode does not use is not 0 (R73, R75). -/
  | unusedField
  /-- `TBL_LEARN` with `P = 0` (R75). -/
  | learnWithoutPrefix
  /-- `REG_READ` of an index above 9 (R75, R181). -/
  | reservedRegister
  deriving DecidableEq, Repr

/-- The command of a word whose fields are given, its opcode checked first and its field values after it (R74, R75, and
the order of R209). -/
def decodeFields (f : Fields) : Except Reject Instr :=
  let bare (i : Instr) : Except Reject Instr :=
    if f.p = 0 ∧ f.code = 0 ∧ f.byte = 0 then .ok i else .error .unusedField
  let legal (r : Except Reject Instr) : Except Reject Instr :=
    if f.rsv = 0 then r else .error .reservedBits
  match f.op.toNat with
  | 0x1 => legal (bare .tblReset)
  | 0x2 => legal (if f.p = 1 then .ok (.tblLookupPrefix f.code f.byte)
                  else if f.code = 0 then .ok (.tblLookup f.byte) else .error .unusedField)
  | 0x3 => legal (if f.p = 1 then .ok (.tblLearn f.code f.byte) else .error .learnWithoutPrefix)
  | 0x4 => legal (if f.p = 0 ∧ f.byte = 0 then .ok (.tblResolve f.code) else .error .unusedField)
  | 0x5 => legal (bare .encStart)
  | 0x6 => legal (if f.p = 0 ∧ f.code = 0 then .ok (.encByte f.byte) else .error .unusedField)
  | 0x7 => legal (bare .encFlush)
  | 0x8 => legal (bare .decStart)
  | 0x9 => legal (if f.p = 0 ∧ f.byte = 0 then .ok (.decCode f.code) else .error .unusedField)
  | 0xA => legal (bare .decEnd)
  | 0xB => legal (if f.p = 0 ∧ f.code = 0 then
                    if f.byte.toNat ≤ 9 then .ok (.regRead f.byte) else .error .reservedRegister
                  else .error .unusedField)
  | _   => .error .reservedOpcode

/-- Decoding: total on every word, rejecting by name. -/
def decode (w : CommandWord) : Except Reject Instr :=
  decodeFields (fieldsOf w)

/-- The fields of a command: the operands in their places, every other field 0 (R74, R82). -/
def encodeFields : Instr → Fields
  | .tblReset            => { op := 0x1#4, rsv := 0, p := 0, code := 0, byte := 0 }
  | .tblLookup b         => { op := 0x2#4, rsv := 0, p := 0, code := 0, byte := b }
  | .tblLookupPrefix p b => { op := 0x2#4, rsv := 0, p := 1, code := p, byte := b }
  | .tblLearn p b        => { op := 0x3#4, rsv := 0, p := 1, code := p, byte := b }
  | .tblResolve c        => { op := 0x4#4, rsv := 0, p := 0, code := c, byte := 0 }
  | .encStart            => { op := 0x5#4, rsv := 0, p := 0, code := 0, byte := 0 }
  | .encByte b           => { op := 0x6#4, rsv := 0, p := 0, code := 0, byte := b }
  | .encFlush            => { op := 0x7#4, rsv := 0, p := 0, code := 0, byte := 0 }
  | .decStart            => { op := 0x8#4, rsv := 0, p := 0, code := 0, byte := 0 }
  | .decCode c           => { op := 0x9#4, rsv := 0, p := 0, code := c, byte := 0 }
  | .decEnd              => { op := 0xA#4, rsv := 0, p := 0, code := 0, byte := 0 }
  | .regRead r           => { op := 0xB#4, rsv := 0, p := 0, code := 0, byte := r }

/-- Encoding: `(OP << 28) | (P << 24) | (CODE16 << 8) | BYTE8` (R84). -/
def encode (i : Instr) : CommandWord :=
  packFields (encodeFields i)

/-- The command the decoder reads from the low `nbits` bits of `w`, numbered as spec/opcode_table.json numbers them (a command
is one 32-bit word, so bit 0 is the word's least significant bit); none where the decoder rejects the word, or where a bit
above the 32 is set. -/
def decodeTableWord (nbits w : Nat) : Option Instr :=
  let x := w % 2 ^ nbits
  if x < 2 ^ 32 then
    match decode (BitVec.ofNat 32 x) with
    | .ok i    => some i
    | .error _ => none
  else none

end Sys2Proof
end

