-- ==== Sys2Proof/Config.lean ====
section
/-! DEFINITION. What an implementation fixes (the instance parameters of R9, R10) and the one behaviour the
spec leaves to an unspecified choice (R231, item U2 of 93_implementation_defined.md). -/

namespace Sys2Proof

/-- The instance parameters, fixed for the life of an instance (R9, R38). The widths are those of the register map
(R181). Every value is allowed as data; `Params.Legal` says which sets an instance may have. -/
structure Params where
  /-- `CAPACITY`: the upper bound on seeds plus learned entries. -/
  capacity : BitVec 17
  /-- `MAX_WIDTH`: the ceiling of the nominal code width. -/
  maxWidth : BitVec 5
  deriving DecidableEq, Repr

/-- A legal parameter set: `256 <= CAPACITY <= 65536` and `9 <= MAX_WIDTH <= 16` (R10). -/
abbrev Params.Legal (p : Params) : Prop :=
  256 ≤ p.capacity.toNat ∧ p.capacity.toNat ≤ 65536 ∧ 9 ≤ p.maxWidth.toNat ∧ p.maxWidth.toNat ≤ 16

/-- The defaults: `CAPACITY = 4096`, `MAX_WIDTH = 12` (R9). -/
def Params.standard : Params := { capacity := 4096#17, maxWidth := 12#5 }

/-- `SEED_COUNT`, fixed at 256 (R9). -/
abbrev Config.seedCount : Nat := 256

/-- `INIT_WIDTH`, fixed at 9 (R9). -/
abbrev Config.initWidth : BitVec 5 := 9#5

/-- Free value (R231, U2; log entry 4): whether the command in flight at the `n`-th reset of that kind was performed
completely before the reset, or not at all. No value of it can be proved, so a claim holds for both outcomes. -/
opaque Config.inFlightPerformed : Nat → Bool

end Sys2Proof
end

