-- ==== Sys2Proof/Machine/State.lean ====
section
/-! DEFINITION. The state of one block instance (10_state.md), the response record, the host's events, the value after
hardware reset, and the reasons a step can stop. -/

namespace Sys2Proof.Machine

/-- One slot of the entry store: the entry is the string of the prefix code followed by the suffix byte (R21). -/
structure Entry where
  /-- `PREFIX[k]`, 16 bits. -/
  pre    : Code
  /-- `SUFFIX[k]`, 8 bits. -/
  suffix : Byte
  deriving DecidableEq, Repr

/-- The entry store: the slots some insertion has written, by code, in rising order. The unit of access is one whole entry
(R50), so a cell is a code with its entry. A slot that is not listed has no value (log entry 5). -/
abbrev Memory := List (Nat × Entry)

/-- The canonical form of a store: codes strictly rising, so that equal stores are equal lists. An unlisted slot has no
value, so no listed entry equals what an unlisted slot reads as. -/
abbrev Memory.wf (m : Memory) : Prop :=
  m.Pairwise (fun x y => x.1 < y.1)

/-- `STATUS.STATE`, five legal values (R35); 5, 6 and 7 are never held (U3). -/
inductive FsmState where
  /-- 0: no run is active. -/
  | idle
  /-- 1: an encode run is active. -/
  | encRun
  /-- 2: a decode run is active, and no code has been taken yet. -/
  | decFirst
  /-- 3: a decode run is active, and at least one code has been decoded. -/
  | decRun
  /-- 4: a decode run has failed and has not yet ended. -/
  | decFailed
  deriving DecidableEq, Repr

/-- `ERR_CAUSE`, five legal values (R37); 5, 6 and 7 are never held (U3). -/
inductive ErrCause where
  /-- 0. -/
  | none
  /-- 1: the code stream was empty. -/
  | emptyStream
  /-- 2: the first code of a run is no seed. -/
  | firstNotSeed
  /-- 3: a code is neither present nor exactly the next one. -/
  | unknownCode
  /-- 4: a frozen repair with `PREV_EXT = 2^32 - 1`. -/
  | extOverflow
  deriving DecidableEq, Repr

/-- A response status (R78); 6 to 15 are never produced (U4). -/
inductive Status where
  /-- 0. -/
  | ok
  /-- 1. -/
  | notFound
  /-- 2. -/
  | invalidStream
  /-- 3. -/
  | illegalCommand
  /-- 4. -/
  | stateError
  /-- 5. -/
  | operandError
  deriving DecidableEq, Repr

/-- The response record (R80). -/
structure Response where
  status : Status
  /-- The command's scalar result, or 0. -/
  value  : Value
  /-- Bytes output, in order. -/
  data   : List Byte
  /-- Codes the encoder emitted: none or one. -/
  codes  : List Code
  deriving DecidableEq, Repr

/-- What the host can do to the block (R230, R231, R236). -/
inductive HostEvent where
  /-- Issue one command word. -/
  | command (w : CommandWord)
  /-- Assert the reset input (or cycle power) between two commands (R230). -/
  | reset
  /-- Issue a command word and assert the reset input before its response has been received (R231). One word: see log entry
  21 for several unanswered words. -/
  | resetInFlight (w : CommandWord)
  deriving DecidableEq, Repr

/-- The state of one instance. The fields from `entries` to `errCode` are the architectural state (R20); `params` is
constant (R9); `input`, `output` and `freeIndex` are the model's own (log entries 3 and 4). -/
structure State where
  /-- `CAPACITY` and `MAX_WIDTH`, hardwired: no step writes them (R9, R38). -/
  params   : Params
  /-- `PREFIX[k]` and `SUFFIX[k]` (R21). -/
  entries  : Memory
  /-- `NEXT_CODE`, the next code to assign (R26). -/
  nextCode : BitVec 17
  /-- `CUR_WIDTH`, the nominal code width (R31). -/
  curWidth : BitVec 5
  /-- `STATUS.STATE` (R35). -/
  fsm      : FsmState
  /-- `BUF_VALID` (R32). -/
  bufValid : Bool
  /-- `BUF_CODE` (R32). -/
  bufCode  : Code
  /-- `PREV_CODE` (R33). -/
  prevCode : Code
  /-- `PREV_EXT` (R33). -/
  prevExt  : BitVec 32
  /-- `STATUS.ERR` (R37). -/
  err      : Bool
  /-- `ERR_CAUSE` (R37). -/
  errCause : ErrCause
  /-- `ERR_CODE` (R37). -/
  errCode  : Code
  /-- The host's events not yet taken, oldest first (R62). -/
  input    : List HostEvent
  /-- The responses given so far, oldest first (R62, R77). -/
  output   : List Response
  /-- Which free value the next reset in flight reads (R231). -/
  freeIndex : Nat
  deriving DecidableEq, Repr

/-- The state right after hardware reset (R42, R230) of an instance with the default parameters (R9), to which the host has
issued nothing. -/
def State.reset : State :=
  { params    := Params.standard
    entries   := []
    nextCode  := 256#17
    curWidth  := Config.initWidth
    fsm       := .idle
    bufValid  := false
    bufCode   := 0#16
    prevCode  := 0#16
    prevExt   := 0#32
    err       := false
    errCause  := .none
    errCode   := 0#16
    input     := []
    output    := []
    freeIndex := 0 }

/-- Why the machine stops. The block itself has no such event: every failure the spec describes is a next state. -/
inductive Fault where
  /-- A command needs `STR(k)` of a code `k` for which the recursion of R24 is not defined, although `k < NEXT_CODE`: a slot
  below `NEXT_CODE` was never written, or a prefix is not smaller than its code. Raised by the meanings of `TBL_LOOKUP p, b`,
  `TBL_RESOLVE`, `ENC_BYTE` and `DEC_CODE`. No state that meets the invariant of Safety.lean raises it. Safe. -/
  | stringUndefined (k : Nat)
  deriving DecidableEq, Repr

/-- Why the model gives no meaning. -/
inductive Refusal where
  /-- A command that has no meaning yet. Raised by no arm of `exec` now. Safe. -/
  | notModelled (mnemonic : String)
  /-- The parameter set is not legal: "An instance with any other parameter value is refused" (R10, I5). Raised by `step`.
  Safe. -/
  | illegalParameters
  deriving DecidableEq, Repr

end Sys2Proof.Machine
end

