-- ==== Sys2Proof/Machine/Ops.lean ====
section
/-! DEFINITION. The named operations over the entry store, the table and the response stream (10_state.md, 40_table.md §1),
command rejection (R206), and the decoder's failure entry with the return from it (R203, R211). -/

namespace Sys2Proof.Machine

/-- What a meaning answers. -/
abbrev Result := Host.Outcome State Fault Refusal

/-! ### The entry store (R21, R51) -/

/-- `EntryRead` (R14): the entry last written at a slot; none for a slot no insertion has written. -/
def Memory.read : Memory → Nat → Option Entry
  | [], _ => none
  | (j, d) :: rest, k => if j = k then some d else Memory.read rest k

/-- `EntryWrite` (R14): write one whole slot, keeping the canonical form. -/
def Memory.write : Memory → Nat → Entry → Memory
  | [], k, e => [(k, e)]
  | (j, d) :: rest, k, e =>
    if k < j then (k, e) :: (j, d) :: rest
    else if k = j then (k, e) :: rest
    else (j, d) :: Memory.write rest k e

/-! ### The strings of the table (R22 to R29) -/

/-- Code `k` is present in the table exactly when `k < NEXT_CODE` (R25). -/
abbrev State.Present (s : State) (k : Nat) : Prop := k < s.nextCode.toNat

/-- The recursion of `STR` (R24) over a store `m` in which the codes below `n` are present, for at most `fuel` codes of the
prefix chain; none where the chain leaves the present codes, meets a slot without a value, or is longer. -/
def strFuel (m : Memory) (n : Nat) : Nat → Nat → Option (List Byte)
  | 0, _ => none
  | fuel + 1, k =>
    if n ≤ k then none
    else if k < Config.seedCount then some [BitVec.ofNat 8 k]
    else match Memory.read m k with
      | none   => none
      | some e => (strFuel m n fuel e.pre.toNat).map (· ++ [e.suffix])

/-- `STR(k)`: the byte string of a present code (R24). A prefix chain that ends has at most `NEXT_CODE` codes, so this is
defined exactly where the recursion of R24 is. -/
def strOf (s : State) (k : Nat) : Option (List Byte) :=
  strFuel s.entries s.nextCode.toNat s.nextCode.toNat k

/-- `FIRST(k)`: the first byte of `STR(k)` (R24). -/
def firstOf (s : State) (k : Nat) : Option Byte :=
  (strOf s k).bind List.head?

/-- `FIND(str)`: the least present code that holds the string, if any (R29). -/
def findCode (s : State) (str : List Byte) : Option Nat :=
  (List.range s.nextCode.toNat).find? (fun k => decide (strOf s k = some str))

/-! ### Table reset and insertion (R100, R106 to R108) -/

/-- `TABLE_RESET()` (R100): the slots keep their bits, and none is present. -/
def tableReset (s : State) : State :=
  { s with nextCode := 256#17, curWidth := Config.initWidth }

/-- `WIDTH_TRACK()` (R108). -/
def widthTrack (s : State) : State :=
  if 2 ^ s.curWidth.toNat ≤ s.nextCode.toNat ∧ s.curWidth.toNat < s.params.maxWidth.toNat then
    { s with curWidth := s.curWidth + 1 }
  else s

/-- `INSERT(p, b)` (R106): the state after, and the code assigned; below capacity only, otherwise nothing changes and no
code is assigned (R107). A string that is already present gets a second code (D10). -/
def insertEntry (s : State) (p : Code) (b : Byte) : State × Option (BitVec 17) :=
  if s.nextCode.toNat < s.params.capacity.toNat then
    (widthTrack { s with
        entries  := Memory.write s.entries s.nextCode.toNat { pre := p, suffix := b }
        nextCode := s.nextCode + 1 },
      some s.nextCode)
  else (s, none)

/-! ### Responses and rejection (R77, R80, R206) -/

/-- `respond(status, value, data, codes)`: the command's one response, after all the earlier ones (R14, R62, R80). -/
def respond (s : State) (status : Status) (value : Value) (data : List Byte) (codes : List Code) : State :=
  { s with output := s.output ++ [{ status := status, value := value, data := data, codes := codes }] }

/-- The end of a command that is performed: its response, and the state it leaves. -/
def finish (s : State) (status : Status) (value : Value) (data : List Byte) (codes : List Code) : Result :=
  .next (respond s status value data codes)

/-- `cmd_error(status)`: reject the command; nothing but the response is written (R206). -/
def cmdError (s : State) (status : Status) : Result :=
  finish s status 0#32 [] []

/-- The scalar result of a response that outputs bytes: their number, saturated at `2^32 - 1` (R152, D31). -/
def lengthValue (data : List Byte) : Value :=
  BitVec.ofNat 32 (min data.length (2 ^ 32 - 1))

/-! ### The failure entry and the return from it (R203, R205, R211) -/

/-- The number of an `ERR_CAUSE` (R37). -/
def ErrCause.bits : ErrCause → BitVec 3
  | .none         => 0#3
  | .emptyStream  => 1#3
  | .firstNotSeed => 2#3
  | .unknownCode  => 3#3
  | .extOverflow  => 4#3

/-- The value of an `INVALID_STREAM` response: `{13'b0, ERR_CAUSE[2:0], ERR_CODE[15:0]}` (R80). -/
def invalidStreamValue (cause : ErrCause) (code : Code) : Value :=
  0#13 ++ cause.bits ++ code

/-- Record a failure: the sticky flag, the cause and the offending code (R203, R154). -/
def recordError (s : State) (cause : ErrCause) (code : Code) : State :=
  { s with err := true, errCause := cause, errCode := code }

/-- Clear the error record (R37, R101, R131, R151). -/
def clearError (s : State) : State :=
  { s with err := false, errCause := .none, errCode := 0#16 }

/-- `raise InvalidStream(cause, code)`: the failure entry of `DEC_CODE` (R203). Nothing else is written (R204). -/
def raiseInvalidStream (s : State) (cause : ErrCause) (code : Code) : Result :=
  finish { recordError s cause code with fsm := .decFailed } .invalidStream (invalidStreamValue cause code) [] []

/-- The sticky response of a failed run: the recorded failure again (R205). -/
def repeatFailure (s : State) : Result :=
  finish s .invalidStream (invalidStreamValue s.errCause s.errCode) [] []

/-- The return from a failure: a failed run ends in `IDLE`, with `STATUS.ERR` still 1 (R211, R154). -/
def returnFromFailure (s : State) : Result :=
  repeatFailure { s with fsm := .idle }

/-! ### Hardware reset (R230) -/

/-- Hardware reset: every register at its value of R42. The slots are unspecified, so they have no value (log entry 5). The
parameters do not change, and the streams belong to the host (R41). -/
def hardwareReset (s : State) : State :=
  { s with
    entries  := []
    nextCode := 256#17
    curWidth := Config.initWidth
    fsm      := .idle
    bufValid := false
    bufCode  := 0#16
    prevCode := 0#16
    prevExt  := 0#32
    err      := false
    errCause := .none
    errCode  := 0#16 }

end Sys2Proof.Machine
end

