-- ==== Sys2Proof/Machine/Operands.lean ====
section
/-! DEFINITION. Operand assembly (R72): the code operands, the candidate strings, the match buffer and the previous entry as
strings, and which commands are legal in which state (R207). -/

namespace Sys2Proof.Machine

/-- `zext_17`: a code operand as it is compared with `NEXT_CODE` (R72). -/
def zext17 (c : Code) : BitVec 17 := c.setWidth 17

/-- Whether a code operand is present: `zext_17(CODE16) < NEXT_CODE` (R25, R72). -/
abbrev operandPresent (s : State) (c : Code) : Prop := (zext17 c).toNat < s.nextCode.toNat

/-- `CAND(1, p, b)`: `STR(p) ++ [b]` (R72). -/
def candidate (s : State) (p : Code) (b : Byte) : Option (List Byte) :=
  (strOf s p.toNat).map (· ++ [b])

/-- `BUFSTR`: the match buffer's string (R32). -/
def bufStr (s : State) : Option (List Byte) :=
  if s.bufValid then strOf s s.bufCode.toNat else some []

/-- `PREVSTR`: `STR(PREV_CODE) ++ rep(PREV_EXT, FIRST(PREV_CODE))` (R33). -/
def prevStr (s : State) : Option (List Byte) :=
  (strOf s s.prevCode.toNat).bind fun str =>
    str.head?.map fun x => str ++ List.replicate s.prevExt.toNat x

/-- The entry of a next-code repair: `PREVSTR ++ [FIRST(PREV_CODE)]` (R153). -/
def repairEntry (s : State) : Option (List Byte) :=
  (prevStr s).bind fun str => (firstOf s s.prevCode.toNat).map fun x => str ++ [x]

/-- The commands that some state rejects (R207). -/
inductive Guarded where
  | learn | encode | decode
  deriving DecidableEq, Repr

/-- The legality matrix (R207): `TBL_LEARN` in `IDLE`; `ENC_BYTE` and `ENC_FLUSH` in `ENC_RUN`; `DEC_CODE` and `DEC_END` in
`DEC_FIRST`, `DEC_RUN` and `DEC_FAILED`. Every other command is legal in every state. -/
def legalIn : Guarded → FsmState → Bool
  | .learn,  .idle      => true
  | .encode, .encRun    => true
  | .decode, .decFirst  => true
  | .decode, .decRun    => true
  | .decode, .decFailed => true
  | _, _                => false

/-- Run a command's body in the states that allow it; `STATE_ERROR` in the others (R207). -/
def guarded (g : Guarded) (s : State) (body : Result) : Result :=
  if legalIn g s.fsm then body else cmdError s .stateError

/-- Continue with a string the spec defines; stop where it is not defined (log entry 6). -/
def withString (k : Nat) (str : Option (List Byte)) (body : List Byte → Result) : Result :=
  match str with
  | some x => body x
  | none   => .fault (.stringUndefined k)

end Sys2Proof.Machine
end

