-- ==== Sys2Proof/Machine/Decoder.lean ====
section
/-! DEFINITION. The meanings of the decoder commands, with the next-code repair (42_decoder.md). -/

namespace Sys2Proof.Machine

/-- `DEC_START`: a fresh table and no previous entry; the match buffer is unchanged (R151). -/
def execDecStart (s : State) : Result :=
  let s := tableReset s
  finish (clearError { s with fsm := .decFirst, prevCode := 0#16, prevExt := 0#32 }) .ok 0#32 [] []

/-- The first code of a run: a seed, or the failure `FIRST_NOT_SEED` (R152, R155). -/
def decodeFirst (s : State) (c : Code) : Result :=
  if c.toNat < Config.seedCount then
    finish { s with prevCode := c, prevExt := 0#32, fsm := .decRun } .ok 1#32 [c.setWidth 8] []
  else raiseInvalidStream s .firstNotSeed c

/-- The end of step 2 for a code whose entry is known (R152): learn `previous + entry[0:1]`, then set the previous entry, and
output. A repair on a frozen table leaves an entry that has no code: `PREV_EXT` counts it (R157). -/
def decodeEntry (s : State) (c : Code) (repair : Bool) (entry : List Byte) : Result :=
  match entry with
  | []     => .fault (.stringUndefined c.toNat)
  | x :: _ =>
    let learned := (insertEntry s s.prevCode x).1
    if repair = false ∨ (zext17 c).toNat < s.params.capacity.toNat then
      finish { learned with prevCode := c, prevExt := 0#32 } .ok (lengthValue entry) entry []
    else finish { learned with prevExt := s.prevExt + 1 } .ok (lengthValue entry) entry []

/-- A frozen repair that `PREV_EXT` cannot count: the counter is full and the code is not below capacity (R158). -/
def extensionFull (s : State) (c : Code) : Bool :=
  decide (s.params.capacity.toNat ≤ (zext17 c).toNat ∧ s.prevExt = 0xFFFFFFFF#32)

/-- Every later code of a run: present, exactly next, or unknown, in that order (R152, R153, R162). The overflow of a frozen
repair is raised before its entry is formed; nothing has been written by then (R204, R209). -/
def decodeNext (s : State) (c : Code) : Result :=
  if operandPresent s c then withString c.toNat (strOf s c.toNat) (decodeEntry s c false)
  else if zext17 c = s.nextCode then
    if extensionFull s c then raiseInvalidStream s .extOverflow c
    else withString s.prevCode.toNat (repairEntry s) (decodeEntry s c true)
  else raiseInvalidStream s .unknownCode c

/-- `DEC_CODE c`: consume one code (R152). -/
def execDecCode (c : Code) (s : State) : Result :=
  guarded .decode s <|
    match s.fsm with
    | .decFailed => repeatFailure s
    | .decFirst  => decodeFirst s c
    | _          => decodeNext s c

/-- `DEC_END`: end of the code stream (R154). -/
def execDecEnd (s : State) : Result :=
  guarded .decode s <|
    match s.fsm with
    | .decFirst  =>
      finish { recordError s .emptyStream 0#16 with fsm := .idle } .invalidStream
        (invalidStreamValue .emptyStream 0#16) [] []
    | .decFailed => returnFromFailure s
    | _          => finish { s with fsm := .idle } .ok 0#32 [] []

end Sys2Proof.Machine
end

