-- ==== Sys2Proof/Machine/Encoder.lean ====
section
/-! DEFINITION. The meanings of the encoder commands (41_encoder.md). -/

namespace Sys2Proof.Machine

/-- `ENC_START`: a fresh table and an empty match buffer; the previous entry is unchanged (R131). -/
def execEncStart (s : State) : Result :=
  let s := tableReset s
  finish (clearError { s with fsm := .encRun, bufValid := false, bufCode := 0#16 }) .ok 0#32 [] []

/-- One byte of an encode run, with the buffer's string given (R132): extend the match where the candidate is present (step
2), else emit the buffer's code, learn the candidate and restart the buffer at the byte (step 3). -/
def encodeByte (s : State) (b : Byte) (buffer : List Byte) : Result :=
  match findCode s (buffer ++ [b]) with
  | some k => finish { s with bufCode := BitVec.ofNat 16 k, bufValid := true } .ok 0#32 [] []
  | none   =>
    finish { (insertEntry s s.bufCode b).1 with bufCode := b.setWidth 16, bufValid := true } .ok 1#32 [] [s.bufCode]

/-- `ENC_BYTE b`: consume one input byte (R132). -/
def execEncByte (b : Byte) (s : State) : Result :=
  guarded .encode s <| withString s.bufCode.toNat (bufStr s) (encodeByte s b)

/-- `ENC_FLUSH`: emit the buffer if it is not empty, and end the run; the table is kept (R133). -/
def execEncFlush (s : State) : Result :=
  guarded .encode s <|
    let codes := if s.bufValid then [s.bufCode] else []
    finish { s with bufValid := false, bufCode := 0#16, fsm := .idle } .ok (BitVec.ofNat 32 codes.length) [] codes

end Sys2Proof.Machine
end

