-- ==== Sys2Proof/Machine/Flags.lean ====
section
/-! DEFINITION. The status word and the register map (R27, R36, R181), and the numbers of the enumerated values. -/

namespace Sys2Proof.Machine

/-- The number of a `STATUS.STATE` (R35). -/
def FsmState.bits : FsmState → BitVec 3
  | .idle      => 0#3
  | .encRun    => 1#3
  | .decFirst  => 2#3
  | .decRun    => 3#3
  | .decFailed => 4#3

/-- The number of a response status (R78). -/
def Status.bits : Status → BitVec 4
  | .ok             => 0#4
  | .notFound       => 1#4
  | .invalidStream  => 2#4
  | .illegalCommand => 3#4
  | .stateError     => 4#4
  | .operandError   => 5#4

/-- `STATUS.FROZEN`: 1 exactly when `NEXT_CODE = CAPACITY`; computed, not stored (R27). -/
def frozen (s : State) : Bool := decide (s.nextCode = s.params.capacity)

/-- `STATUS`: `STATE` in bits 2..0, `ERR` in 3, `FROZEN` in 4, `BUF_VALID` in 5, the rest 0 (R36). -/
def statusWord (s : State) : Value :=
  0#26 ++ BitVec.ofBool s.bufValid ++ BitVec.ofBool (frozen s) ++ BitVec.ofBool s.err ++ s.fsm.bits

/-- The register map (R181): every register zero-extended to 32 bits; none for a reserved index. -/
def regValue (s : State) (r : Nat) : Option Value :=
  match r with
  | 0 => some (statusWord s)
  | 1 => some (s.nextCode.setWidth 32)
  | 2 => some (s.curWidth.setWidth 32)
  | 3 => some (s.params.capacity.setWidth 32)
  | 4 => some (s.params.maxWidth.setWidth 32)
  | 5 => some (s.bufCode.setWidth 32)
  | 6 => some (s.prevCode.setWidth 32)
  | 7 => some s.prevExt
  | 8 => some (s.errCause.bits.setWidth 32)
  | 9 => some (s.errCode.setWidth 32)
  | _ => none

end Sys2Proof.Machine
end

