-- ==== Sys2Proof/Machine/StatusRead.lean ====
section
/-! DEFINITION. The meaning of `REG_READ` (43_status.md). -/

namespace Sys2Proof.Machine

/-- `REG_READ r`: the register's value, with no side effect; a reserved index is `ILLEGAL_COMMAND` (R180). -/
def execRegRead (r : Byte) (s : State) : Result :=
  match regValue s r.toNat with
  | some v => finish s .ok v [] []
  | none   => cmdError s .illegalCommand

end Sys2Proof.Machine
end

