-- ==== Sys2Proof/Machine/Table.lean ====
section
/-! DEFINITION. The meanings of the table commands (40_table.md §2). -/

namespace Sys2Proof.Machine

/-- `TBL_RESET`: reset the table and abandon any run (R101). -/
def execTblReset (s : State) : Result :=
  let s := tableReset s
  let s := { s with fsm := .idle, bufValid := false, bufCode := 0#16, prevCode := 0#16, prevExt := 0#32 }
  finish (clearError s) .ok 0#32 [] []

/-- The response of a lookup: the code found, or `NOT_FOUND` (R102). -/
def lookupResponse (s : State) (str : List Byte) : Result :=
  match findCode s str with
  | none   => finish s .notFound 0#32 [] []
  | some k => finish s .ok (BitVec.ofNat 32 k) [] []

/-- `TBL_LOOKUP b`: the candidate `[b]` (R102). -/
def execTblLookup (b : Byte) (s : State) : Result :=
  lookupResponse s [b]

/-- `TBL_LOOKUP p, b`: the candidate `STR(p) ++ [b]`; `OPERAND_ERROR` for a prefix that is not present (R102, R208). -/
def execTblLookupPrefix (p : Code) (b : Byte) (s : State) : Result :=
  if operandPresent s p then withString p.toNat (candidate s p b) (lookupResponse s)
  else cmdError s .operandError

/-- `TBL_LEARN p, b`: the state is checked before the operand (R103, R209). -/
def execTblLearn (p : Code) (b : Byte) (s : State) : Result :=
  guarded .learn s <|
    if operandPresent s p then
      match insertEntry s p b with
      | (t, some k) => finish t .ok (k.setWidth 32) [] []
      | (t, none)   => finish t .ok 0xFFFFFFFF#32 [] []
    else cmdError s .operandError

/-- `TBL_RESOLVE c`: the string of a present code, with its length; `NOT_FOUND` for any other (R104). -/
def execTblResolve (c : Code) (s : State) : Result :=
  if operandPresent s c then
    withString c.toNat (strOf s c.toNat) fun str => finish s .ok (lengthValue str) str []
  else finish s .notFound 0#32 [] []

end Sys2Proof.Machine
end

