-- ==== Sys2Proof/Machine/Dispatch.lean ====
section
/-! DEFINITION. One arm per command (R74). -/

namespace Sys2Proof.Machine

/-- The meaning of a command. -/
def exec (i : Instr) (s : State) : Host.Outcome State Fault Refusal :=
  match i with
  | .tblReset => Sys2Proof.Machine.execTblReset s
  | .tblLookup b => Sys2Proof.Machine.execTblLookup b s
  | .tblLookupPrefix p b => Sys2Proof.Machine.execTblLookupPrefix p b s
  | .tblLearn p b => Sys2Proof.Machine.execTblLearn p b s
  | .tblResolve c => Sys2Proof.Machine.execTblResolve c s
  | .encStart => Sys2Proof.Machine.execEncStart s
  | .encByte b => Sys2Proof.Machine.execEncByte b s
  | .encFlush => Sys2Proof.Machine.execEncFlush s
  | .decStart => Sys2Proof.Machine.execDecStart s
  | .decCode c => Sys2Proof.Machine.execDecCode c s
  | .decEnd => Sys2Proof.Machine.execDecEnd s
  | .regRead r => Sys2Proof.Machine.execRegRead r s

end Sys2Proof.Machine
end

