-- ==== Sys2Proof/Machine/Events.lean ====
section
/-! DEFINITION. What the block does with one event of the host: a command word, a hardware reset, a reset while a command is
in flight (30_encoding.md, 70_reset_and_hazards.md). -/

namespace Sys2Proof.Machine

/-- Take one command word: perform the command it encodes, or answer `ILLEGAL_COMMAND` (R76, R77, R209). -/
def performWord (w : CommandWord) (s : State) : Result :=
  match decode w with
  | .ok i    => exec i s
  | .error _ => cmdError s .illegalCommand

/-- A reset while the response to a command word has not been received: the command is performed completely and the reset
follows it, or it is not performed at all; a free value says which (R231, U2, log entry 4).
DESIGN CHOICE (log entry 21): R231 speaks of one command. Of several issued ahead (R241) and unanswered at a reset, this one,
the latest, may go unperformed; every earlier one in `input` is performed, with its response, before the reset. -/
def resetInFlight (w : CommandWord) (s : State) : Result :=
  let t := { s with freeIndex := s.freeIndex + 1 }
  if Config.inFlightPerformed s.freeIndex then
    match performWord w t with
    | .next u    => .next (hardwareReset u)
    | .fault r   => .fault r
    | .refused r => .refused r
  else .next (hardwareReset t)

/-- Take one event of the host. -/
def takeEvent (e : HostEvent) (s : State) : Result :=
  match e with
  | .command w       => performWord w s
  | .reset           => .next (hardwareReset s)
  | .resetInFlight w => resetInFlight w s

/-- Take the oldest event the host has issued, in order (R62); with none issued the block stays as it is (log entry 3). -/
def takeNext (s : State) : Result :=
  match s.input with
  | []        => .next s
  | e :: rest => takeEvent e { s with input := rest }

/-- The state with a command word issued ahead of every event still waiting. -/
def issueFirst (s : State) (w : CommandWord) : State :=
  { s with input := .command w :: s.input }

end Sys2Proof.Machine
end

