-- ==== Sys2Proof/Machine/Step.lean ====
section
/-! DEFINITION. One step of the block: one event of the host, taken atomically (R58, R62). -/

namespace Sys2Proof.Machine

/-- One step. An instance whose parameters are not legal is refused (R10). -/
def step (s : State) : Host.Outcome State Fault Refusal :=
  if s.params.Legal then takeNext s else .refused .illegalParameters

/-- `s` with the command of the low `nbits` bits of `w` issued as the next event, so that the very next step takes it. The
block fetches nothing from a memory (R64): commands are taken as the host issues them, so this is the host's issue of one
word (log entry 3). -/
def State.withFetchWord (s : State) (nbits w : Nat) : State :=
  issueFirst s (BitVec.ofNat 32 (w % 2 ^ nbits))

end Sys2Proof.Machine
end

