-- ==== Sys2Proof/Machine/Run.lean ====
section
/-! DEFINITION. A run as the host sees it: what it issued with what it was answered, the output of a run read off that (R81),
where a run ends, and the observation of a finished run (R245). -/

namespace Sys2Proof.Machine

/-! ### What was issued, with what was answered -/

/-- One event of the host with the responses it was given: exactly one to a command word (R77), none to a reset, and one or
none to a command in flight at a reset (R231). -/
structure Exchange where
  event     : HostEvent
  responses : List Response
  deriving DecidableEq, Repr

/-- The exchange of a step from `s` to `t`: the event it took, with the responses given since; none where it took no event. -/
def exchangeOf (s t : State) : List Exchange :=
  match s.input with
  | []     => []
  | e :: _ => [{ event := e, responses := t.output.drop s.output.length }]

/-- The exchanges of a number of steps, in order, ending at the first stop. -/
def transcript : Nat → State → List Exchange
  | 0, _     => []
  | n + 1, s =>
    match step s with
    | .next t => exchangeOf s t ++ transcript n t
    | _       => []

/-- The command an exchange answers, with its response; none for a word that is no command and for a reset alone. -/
def Exchange.answered (x : Exchange) : Option (Instr × Response) :=
  match x.event, x.responses with
  | .command w, [r] | .resetInFlight w, [r] => (decode w).toOption.map fun i => (i, r)
  | _, _ => none

/-! ### The output of a run (R81) -/

/-- The code sequence of an encode run: the `codes` of its responses, in order (R81). No command but `ENC_BYTE` and `ENC_FLUSH`
answers codes, so the responses to interleaved reads add none. -/
def runCodes (rs : List Response) : List Code := rs.flatMap (·.codes)

/-- What an exchange adds to the bytes of a decode run: the `data` of a response to `DEC_CODE`, and nothing for any other
command; the string a `TBL_RESOLVE` answers during a run is not part of the run's output (R81). -/
def Exchange.bytes (x : Exchange) : List Byte :=
  match x.answered with
  | some (.decCode _, r) => r.data
  | _                    => []

/-- The byte sequence of a decode run: the `data` of its `DEC_CODE` responses, in order (R81). -/
def runBytes (xs : List Exchange) : List Byte := xs.flatMap Exchange.bytes

/-! ### The end of a run and what is observed of it (R245) -/

/-- The status of the response to the command `last`, where that is what an exchange answers. -/
def Exchange.endsWith (last : Instr) (x : Exchange) : Option Status :=
  match x.answered with
  | some (i, r) => if i = last then some r.status else none
  | none        => none

/-- Whether an exchange abandons a run in progress: `TBL_RESET`, a start command (R245, R236), or a hardware reset, in
flight or not (log entry 22). -/
def Exchange.abandons (x : Exchange) : Bool :=
  match x.event with
  | .command _ =>
    match x.answered with
    | some (.tblReset, _) | some (.encStart, _) | some (.decStart, _) => true
    | _ => false
  | .reset | .resetInFlight _ => true

/-- The exchanges of a run in progress up to the response to `last`, with its status; none where the run is abandoned, or has
not ended. -/
def runUntil (last : Instr) : List Exchange → Option (List Exchange × Status)
  | []      => none
  | x :: xs =>
    match x.endsWith last with
    | some st => some ([x], st)
    | none    => if x.abandons then none else (runUntil last xs).map fun run => (x :: run.1, run.2)

/-- The observation of a finished run: its output, and the status of its last response (R245). Of a decode run whose status is
`INVALID_STREAM` the bytes are no decoded output (R239). -/
inductive Observation where
  | encoded (codes : List Code) (status : Status)
  | decoded (bytes : List Byte) (status : Status)
  deriving DecidableEq, Repr

/-- The observation of the run that a list of exchanges begins: an encode run ends at the response to its `ENC_FLUSH`, a decode
run at the response to its `DEC_END`; none where no run begins, or where it is abandoned and so has no defined output, or
has not ended (R245). Nothing after the end is read. -/
def observe : List Exchange → Option Observation
  | []      => none
  | x :: xs =>
    match x.event, x.answered with
    | .command _, some (.encStart, _) =>
      (runUntil .encFlush xs).map fun run => .encoded (runCodes (run.1.flatMap (·.responses))) run.2
    | .command _, some (.decStart, _) => (runUntil .decEnd xs).map fun run => .decoded (runBytes run.1) run.2
    | _, _ => none

/-- The commands the host may interleave in a run without effect on it (R236, R240). -/
def isRead : Instr → Bool
  | .tblLookup _ | .tblLookupPrefix _ _ | .tblResolve _ | .regRead _ => true
  | .tblReset | .tblLearn _ _ | .encStart | .encByte _ | .encFlush | .decStart | .decCode _ | .decEnd => false

end Sys2Proof.Machine
end

