-- ==== Sys2Proof/Machine/Composite.lean ====
section
/-! DEFINITION. The composites: the pseudo-instructions (R83), and the source's `compress` and
`decompress` at the level of strings (R137, R160), written from the spec's pseudocode and not from the machine. -/

namespace Sys2Proof.Machine

/-! ### The pseudo-instructions -/

/-- `COMPRESS b_1, ..., b_n` (R83). -/
def compressCommands (d : List Byte) : List Instr :=
  .encStart :: d.map .encByte ++ [.encFlush]

/-- `DECOMPRESS c_1, ..., c_n` (R83). -/
def decompressCommands (cs : List Code) : List Instr :=
  .decStart :: cs.map .decCode ++ [.decEnd]

/-- The host's events that issue given commands, in order. -/
def issue (is : List Instr) : List HostEvent :=
  is.map fun i => .command (encode i)

/-- A number of steps, ending at the first stop. -/
def steps : Nat → State → Result
  | 0, s     => .next s
  | n + 1, s =>
    match step s with
    | .next t    => steps n t
    | .fault r   => .fault r
    | .refused r => .refused r

/-- The code a lookup answers: the `value` of a response with status `OK` (R102). -/
def answeredCode (s : State) (r : Result) : Option Nat :=
  match r with
  | .next t =>
    match t.output.drop s.output.length with
    | [x] => if x.status = .ok then some x.value.toNat else none
    | _   => none
  | _ => none

/-- The rest of a chain of lookups: from the code of the string so far, one `TBL_LOOKUP k, b` for each further byte, until
one does not answer a code (R112). -/
def lookupFrom (s : State) : Option Nat → List Byte → Option Nat
  | k, []           => k
  | none, _ :: _    => none
  | some k, b :: bs => lookupFrom s (answeredCode s (exec (.tblLookupPrefix (BitVec.ofNat 16 k) b) s)) bs

/-- The host's lookup of an arbitrary string by a chain of `TBL_LOOKUP` commands; the commands write no state but the
response, so each is given the state before the chain (R112, R61). -/
def lookupByCommands (s : State) (str : List Byte) : Option Nat :=
  match str with
  | []      => none
  | b :: bs => lookupFrom s (answeredCode s (exec (.tblLookup b) s)) bs

/-! ### The private table of R137 and R160 -/

/-- The table `T`: the string of each present code, by code. -/
abbrev StringTable := List (List Byte)

/-- `T.reset()`: the 256 single-byte strings. -/
def StringTable.seeds : StringTable := (List.range 256).map fun k => [BitVec.ofNat 8 k]

/-- `T.lookup(s)`: the least code that holds the string (R29). -/
def StringTable.lookup (t : StringTable) (str : List Byte) : Option Nat := t.findIdx? (fun x => decide (x = str))

/-- `T.resolve(c)`. -/
def StringTable.resolve (t : StringTable) (c : Nat) : Option (List Byte) := t[c]?

/-- `T.learn(s)`: a no-op when `T` is frozen. -/
def StringTable.learn (capacity : Nat) (t : StringTable) (str : List Byte) : StringTable :=
  if t.length < capacity then t ++ [str] else t

/-! ### `compress` (R137) -/

/-- The loop of `compress` from a table and a buffer, with the final flush. -/
def compressFrom (capacity : Nat) (t : StringTable) (buf : List Byte) : List Byte → List Nat
  | []      => if buf = [] then [] else (t.lookup buf).toList
  | b :: ds =>
    if (t.lookup (buf ++ [b])).isSome then compressFrom capacity t (buf ++ [b]) ds
    else (t.lookup buf).toList ++ compressFrom capacity (t.learn capacity (buf ++ [b])) [b] ds

/-- `compress(data)` (R137). -/
def compress (capacity : Nat) (d : List Byte) : List Nat :=
  compressFrom capacity StringTable.seeds [] d

/-! ### `decompress` (R160) -/

/-- The entry of a later code: resolved, or repaired when it is exactly the next code. -/
def entryOf (t : StringTable) (prev : List Byte) (c : Nat) : Option (List Byte) :=
  match t.resolve c with
  | some e => some e
  | none   => if c = t.length then some (prev ++ prev.take 1) else none

/-- The loop of `decompress` from a table and a previous entry; none is `InvalidStream`. -/
def decompressFrom (capacity : Nat) (t : StringTable) (prev : List Byte) : List Nat → Option (List Byte)
  | []      => some []
  | c :: cs =>
    match entryOf t prev c with
    | none   => none
    | some e => (decompressFrom capacity (t.learn capacity (prev ++ e.take 1)) e cs).map (e ++ ·)

/-- `decompress(codes)` (R160). -/
def decompress (capacity : Nat) (cs : List Nat) : Option (List Byte) :=
  match cs with
  | []      => none
  | c :: cs =>
    match StringTable.seeds.resolve c with
    | none   => none
    | some e => (decompressFrom capacity StringTable.seeds e cs).map (e ++ ·)

end Sys2Proof.Machine
end

