-- ==== Sys2Proof/Machine/Wire.lean ====
section
/-! DEFINITION. The wire format of a code stream (R53 to R56): 16-bit big-endian code words with no further structure. The
serialiser and the deserialiser stand outside the block (R56), so no command uses them. -/

namespace Sys2Proof.Machine

/-- One code word on the wire: first `c[15:8]`, then `c[7:0]` (R53). -/
def wireBytes (c : Code) : List Byte :=
  [c.extractLsb' 8 8, c.extractLsb' 0 8]

/-- A code stream on the wire, in emission order (R54). -/
def serialise (codes : List Code) : List Byte :=
  codes.flatMap wireBytes

/-- The code stream of wire bytes; none for an odd number of bytes, which the framing layer reports as `InvalidStream`
(R56, D23). -/
def deserialise : List Byte → Option (List Code)
  | []           => some []
  | [_]          => none
  | x :: y :: zs => (deserialise zs).map ((x ++ y) :: ·)

end Sys2Proof.Machine
end

