-- ==== Sys2Proof/Safety.lean ====
section
/-! DEFINITION. What counts as a safe run: the invariant of the block, assembled from the rules that say what always holds,
and what a step may answer. -/

namespace Sys2Proof.Machine

/-- `bitlen(n)`: the number of bits in the binary form of `n > 0` (R108). -/
def bitlen (n : Nat) : Nat := Nat.log2 n + 1

/-- What always holds of a block. Each clause is a sentence of the rule it cites. -/
structure State.Inv (s : State) : Prop where
  /-- R10. -/
  params_legal : s.params.Legal
  /-- The store is in its canonical form (log entry 5). -/
  store_wf : Memory.wf s.entries
  /-- R20, R51: slots exist for the codes `256..CAPACITY-1` alone. -/
  store_range : ∀ x ∈ s.entries, Config.seedCount ≤ x.1 ∧ x.1 < s.params.capacity.toNat
  /-- R26. -/
  next_range : Config.seedCount ≤ s.nextCode.toNat ∧ s.nextCode.toNat ≤ s.params.capacity.toNat
  /-- R23: a present learned code has an entry, and its prefix is smaller. -/
  prefix_lt : ∀ k, Config.seedCount ≤ k → s.Present k → ∃ e, Memory.read s.entries k = some e ∧ e.pre.toNat < k
  /-- R108. -/
  width_eq : s.curWidth.toNat = min s.params.maxWidth.toNat (bitlen s.nextCode.toNat)
  /-- R134 (b): in an encode run a buffer that is not empty is a present code. -/
  buffer_present : s.fsm = .encRun → s.bufValid = true → s.Present s.bufCode.toNat
  /-- R30, R134 (c): in an encode run no two present codes hold the same string. -/
  encoder_unique : s.fsm = .encRun → ∀ j k, s.Present j → s.Present k → strOf s j = strOf s k → j = k
  /-- R33, and R151 for the state before the first code. -/
  previous_present : s.fsm = .decFirst ∨ s.fsm = .decRun ∨ s.fsm = .decFailed → s.Present s.prevCode.toNat
  /-- R34. -/
  extension_zero : s.fsm = .decRun → s.nextCode ≠ s.params.capacity → s.prevExt = 0
  /-- R151: nothing is learned before the first code. -/
  first_fresh : s.fsm = .decFirst → s.nextCode = 256#17
  /-- R37, R205: the flag says whether a cause is recorded. -/
  err_iff : s.err = true ↔ s.errCause ≠ .none
  /-- R37: the offending code is 0 for `NONE` and `EMPTY_STREAM`. -/
  err_code_zero : s.errCause = .none ∨ s.errCause = .emptyStream → s.errCode = 0
  /-- R203, R205: a failed run has its failure recorded. -/
  failed_err : s.fsm = .decFailed → s.err = true
  /-- R37, R131, R151: an active run that has not failed has none. -/
  running_clear : s.fsm = .encRun ∨ s.fsm = .decFirst ∨ s.fsm = .decRun → s.err = false

/-- A step is safe where the machine goes on: no fault, no refusal. -/
def Safe (r : Result) : Prop := ∃ t, r = .next t

/-! ### The terms in which claims are stated, written from the rules and not from the meanings -/

/-- A command is performed or rejected with the response `r`, and leaves the state `t`. -/
def Responds (i : Instr) (s : State) (r : Response) (t : State) : Prop :=
  exec i s = .next t ∧ t.output = s.output ++ [r]

/-- The words that are no command, field by field of the word's number (R71, R75, R76). -/
def IllegalWord (w : CommandWord) : Prop :=
  let op := w.toNat / 2 ^ 28
  let rsv := w.toNat / 2 ^ 25 % 8
  let p := w.toNat / 2 ^ 24 % 2
  let code := w.toNat / 2 ^ 8 % 65536
  let byte := w.toNat % 256
  op = 0x0 ∨ 0xC ≤ op ∨ rsv ≠ 0 ∨
  ((op = 0x1 ∨ op = 0x5 ∨ op = 0x7 ∨ op = 0x8 ∨ op = 0xA) ∧ (p ≠ 0 ∨ code ≠ 0 ∨ byte ≠ 0)) ∨
  (op = 0x2 ∧ p = 0 ∧ code ≠ 0) ∨
  (op = 0x3 ∧ p = 0) ∨
  ((op = 0x4 ∨ op = 0x9) ∧ (p ≠ 0 ∨ byte ≠ 0)) ∨
  (op = 0x6 ∧ (p ≠ 0 ∨ code ≠ 0)) ∨
  (op = 0xB ∧ (p ≠ 0 ∨ code ≠ 0 ∨ 9 < byte))

/-- The entries marked `S` in the legality matrix (R207), row by row. -/
def StateErrorAt : Instr → FsmState → Prop
  | .tblLearn _ _, f => f ≠ .idle
  | .encByte _, f | .encFlush, f => f ≠ .encRun
  | .decCode _, f | .decEnd, f => f = .idle ∨ f = .encRun
  | .tblReset, _ | .tblLookup _, _ | .tblLookupPrefix _ _, _ | .tblResolve _, _ | .encStart, _ | .decStart, _
  | .regRead _, _ => False

/-- The state of the FSM after a command that is not rejected (R210), row by row; `st` is the command's outcome. -/
def fsmAfter (f : FsmState) (i : Instr) (st : Status) : FsmState :=
  match i with
  | .tblReset => .idle
  | .encStart => .encRun
  | .decStart => .decFirst
  | .encFlush => .idle
  | .decEnd   => .idle
  | .decCode c =>
    match f with
    | .decFirst => if c.toNat < 256 then .decRun else .decFailed
    | .decRun   => if st = .ok then .decRun else .decFailed
    | _         => f
  | .encByte _ | .tblLookup _ | .tblLookupPrefix _ _ | .tblResolve _ | .regRead _ | .tblLearn _ _ => f

/-- A command is rejected: status 3, 4 or 5 (R206). -/
def Status.IsRejection (st : Status) : Prop :=
  st = .illegalCommand ∨ st = .stateError ∨ st = .operandError

/-- The three table resets (R232). -/
def IsTableReset (i : Instr) : Prop := i = .tblReset ∨ i = .encStart ∨ i = .decStart

/-- `t` holds the table of `s` after `INSERT(p, b)` (R106 to R108): on a frozen table the same table; below capacity the slot
`NEXT_CODE` written and every other slot as before, `NEXT_CODE` one more, and the width tracked. -/
def Inserted (s : State) (p : Code) (b : Byte) (t : State) : Prop :=
  if s.nextCode = s.params.capacity then
    t.entries = s.entries ∧ t.nextCode = s.nextCode ∧ t.curWidth = s.curWidth
  else
    t.nextCode.toNat = s.nextCode.toNat + 1 ∧
    Memory.read t.entries s.nextCode.toNat = some { pre := p, suffix := b } ∧
    (∀ k, k ≠ s.nextCode.toNat → Memory.read t.entries k = Memory.read s.entries k) ∧
    t.curWidth.toNat =
      if 2 ^ s.curWidth.toNat ≤ t.nextCode.toNat ∧ s.curWidth.toNat < s.params.maxWidth.toNat then
        s.curWidth.toNat + 1
      else s.curWidth.toNat

/-- The response record of a command whose result is bytes: `OK`, the number of bytes saturated at `2^32 - 1`, the bytes
(R104, R152, D31). -/
def bytesResponse (data : List Byte) : Response :=
  { status := .ok, value := BitVec.ofNat 32 (min data.length (2 ^ 32 - 1)), data := data, codes := [] }

/-- The response of a failed run: the cause in `value[18:16]`, the code in `value[15:0]`, nothing else (R80). -/
def failureResponse (cause : ErrCause) (c : Code) : Response :=
  { status := .invalidStream, value := BitVec.ofNat 32 (cause.bits.toNat * 2 ^ 16 + c.toNat), data := [], codes := [] }

/-- The state a failing `DEC_CODE c` leaves: that before it, but for the writes of R203 and the response. -/
def failedState (s : State) (cause : ErrCause) (c : Code) : State :=
  { s with
    fsm      := .decFailed
    err      := true
    errCause := cause
    errCode  := c
    output   := s.output ++ [failureResponse cause c] }

/-- A state with `CUR_WIDTH` and `MAX_WIDTH` blanked: what R109 says everything else does not depend on. -/
def blankWidth (s : State) : State :=
  { s with params := { s.params with maxWidth := 0 }, curWidth := 0 }

/-- An outcome with its next state mapped. -/
def mapNext (f : State → State) : Result → Result
  | .next s    => .next (f s)
  | .fault r   => .fault r
  | .refused r => .refused r

end Sys2Proof.Machine
end

