-- ==== Sys2Proof/Certificates/Slice0/Obligations.lean ====
section
/-! DEFINITION. The statements about the block, from the numbered rules of spec/. -/

open Sys2Proof Sys2Proof.Machine

/-! ### Encoding (30_encoding.md) -/

/-- Words written out from R71 and R74 (the assembly table of L2.1 and one word per further opcode) decode to the commands
they stand for. -/
def Obligations.DecodesWordsOfTheSpec : Prop :=
  decode 0x10000000#32 = .ok .tblReset ∧
  decode 0x20000041#32 = .ok (.tblLookup 0x41#8) ∧
  decode 0x21010041#32 = .ok (.tblLookupPrefix 256#16 0x41#8) ∧
  decode 0x310FFF00#32 = .ok (.tblLearn 4095#16 0#8) ∧
  decode 0x40FFFF00#32 = .ok (.tblResolve 65535#16) ∧
  decode 0x50000000#32 = .ok .encStart ∧
  decode 0x600000FF#32 = .ok (.encByte 0xFF#8) ∧
  decode 0x70000000#32 = .ok .encFlush ∧
  decode 0x80000000#32 = .ok .decStart ∧
  decode 0x90010200#32 = .ok (.decCode 258#16) ∧
  decode 0xA0000000#32 = .ok .decEnd ∧
  decode 0xB0000009#32 = .ok (.regRead 9#8)

/-- R84: the word of every command, with its operands in their places. -/
def Obligations.EncodingsOfEveryOpcode : Prop :=
  encode .tblReset = 0x10000000#32 ∧
  (∀ b, (encode (.tblLookup b)).toNat = 0x20000000 + b.toNat) ∧
  (∀ p b, (encode (.tblLookupPrefix p b)).toNat = 0x21000000 + p.toNat * 2 ^ 8 + b.toNat) ∧
  (∀ p b, (encode (.tblLearn p b)).toNat = 0x31000000 + p.toNat * 2 ^ 8 + b.toNat) ∧
  (∀ c, (encode (.tblResolve c)).toNat = 0x40000000 + c.toNat * 2 ^ 8) ∧
  encode .encStart = 0x50000000#32 ∧
  (∀ b, (encode (.encByte b)).toNat = 0x60000000 + b.toNat) ∧
  encode .encFlush = 0x70000000#32 ∧
  encode .decStart = 0x80000000#32 ∧
  (∀ c, (encode (.decCode c)).toNat = 0x90000000 + c.toNat * 2 ^ 8) ∧
  encode .decEnd = 0xA0000000#32 ∧
  (∀ r, (encode (.regRead r)).toNat = 0xB0000000 + r.toNat)

/-- Decode and encode agree: no bit of an encoding is dropped, for every operand of every well-formed command. -/
def Obligations.DecodeOfEncodeIsTheCommand : Prop :=
  ∀ i : Instr, i.WellFormed = true → decode (encode i) = .ok i

/-- The other direction: a word that decodes is the one word of its command, and the command is well formed. -/
def Obligations.EncodeOfDecodeIsTheWord : Prop :=
  ∀ (w : CommandWord) (i : Instr), decode w = .ok i → encode i = w ∧ i.WellFormed = true

/-- R71, R73 to R76: the words the decoder rejects are exactly those with a reserved opcode or an illegal field value. -/
def Obligations.RejectedWordsAreTheIllegalOnes : Prop :=
  ∀ w : CommandWord, (∃ r, decode w = .error r) ↔ IllegalWord w

/-- R73, R75, R76: a word is answered `ILLEGAL_COMMAND` exactly when its opcode is reserved or a field value is illegal; such a
word, the all-zero word among them, has no effect but the response with status 3. -/
def Obligations.IllegalWordHasNoEffect : Prop :=
  IllegalWord 0 ∧
  ∀ (s : State) (w : CommandWord) (rest : List HostEvent), s.Inv → s.input = .command w :: rest →
    ∃ t r, step s = .next t ∧ t.output = s.output ++ [r] ∧ (r.status = .illegalCommand ↔ IllegalWord w) ∧
      (IllegalWord w → t = { s with
        input := rest
        output := s.output ++ [{ status := .illegalCommand, value := 0, data := [], codes := [] }] })

/-! ### The step (20_memory.md §4, 70_reset_and_hazards.md) -/

/-- A step runs the decoded command: when the oldest event is a command word that decodes to `i`, the step is `exec i` at the
state with that event taken; and a command issued first is the one that runs. -/
def Obligations.StepRunsTheDecodedCommand : Prop :=
  (∀ (s : State) (w : CommandWord) (rest : List HostEvent) (i : Instr),
    s.params.Legal → s.input = .command w :: rest → decode w = .ok i → step s = exec i { s with input := rest }) ∧
  (∀ (s : State) (i : Instr), s.params.Legal → i.WellFormed = true →
    step (s.withFetchWord 32 (encode i).toNat) = exec i s)

/-- The model's choice (log entry 3): a block to which the host has issued nothing keeps its state. -/
def Obligations.BlockWithoutACommandWaits : Prop :=
  ∀ s : State, s.params.Legal → s.input = [] → step s = .next s

/-- R10: an instance is refused exactly when its parameters are not legal; no command of a legal one is. -/
def Obligations.RefusedExactlyForIllegalParameters : Prop :=
  ∀ s : State, (∃ r, step s = .refused r) ↔
    ¬ (256 ≤ s.params.capacity.toNat ∧ s.params.capacity.toNat ≤ 65536 ∧
       9 ≤ s.params.maxWidth.toNat ∧ s.params.maxWidth.toNat ≤ 16)

/-- R230: what hardware reset leaves: every register at its reset value, the parameters unchanged, the table the seed table. -/
def Obligations.HardwareResetValues : Prop :=
  ∀ (s : State) (rest : List HostEvent), s.params.Legal → s.input = .reset :: rest →
    ∃ t, step s = .next t ∧ t.fsm = .idle ∧ t.nextCode = 256 ∧ t.curWidth = 9 ∧
      t.bufValid = false ∧ t.bufCode = 0 ∧ t.prevCode = 0 ∧ t.prevExt = 0 ∧
      t.err = false ∧ t.errCause = .none ∧ t.errCode = 0 ∧
      t.params = s.params ∧
      (∀ k < 256, strOf t k = some [BitVec.ofNat 8 k]) ∧ (∀ k ≥ 256, strOf t k = none)

/-- The model's choice (log entries 5 and 14): a hardware reset empties the store, takes nothing from the commands the host has
still to issue, keeps the responses it has given, and gives none. -/
def Obligations.HardwareResetKeepsTheStreams : Prop :=
  ∀ (s : State) (rest : List HostEvent), s.params.Legal → s.input = .reset :: rest →
    ∃ t, step s = .next t ∧ t.entries = [] ∧ t.input = rest ∧ t.output = s.output ∧ t.freeIndex = s.freeIndex

/-- R231: a command in flight at a reset is performed completely, with its response delivered, or not performed at all; in
both cases the block is reset. The free value that decides (log entry 4) is not constrained; that the commands still to be
issued are kept is the model's choice (log entry 14). -/
def Obligations.ResetInFlightPerformsAllOrNothing : Prop :=
  ∀ (s : State) (w : CommandWord) (rest : List HostEvent), s.Inv → s.input = .resetInFlight w :: rest →
    ∃ t, step s = .next t ∧ t.input = rest ∧ t.params = s.params ∧
      t.fsm = .idle ∧ t.nextCode = 256 ∧ t.curWidth = 9 ∧ t.bufValid = false ∧ t.bufCode = 0 ∧ t.prevCode = 0 ∧
      t.prevExt = 0 ∧ t.err = false ∧ t.errCause = .none ∧ t.errCode = 0 ∧
      (t.output = s.output ∨
        ∃ u, step { s with input := .command w :: rest } = .next u ∧ t.output = u.output)

/-- R77: exactly one response to every command word, legal or not, after all earlier responses. -/
def Obligations.EveryCommandGetsExactlyOneResponse : Prop :=
  ∀ (s : State) (w : CommandWord) (rest : List HostEvent), s.Inv → s.input = .command w :: rest →
    ∃ t r, step s = .next t ∧ t.output = s.output ++ [r] ∧ t.input = rest

/-- R80: what a rejected command's response and an `INVALID_STREAM` response hold, and that at most one code is emitted. -/
def Obligations.ShapeOfEveryResponse : Prop :=
  ∀ (i : Instr) (s : State) (r : Response) (t : State), Responds i s r t →
    (r.status.IsRejection → r.value = 0 ∧ r.data = [] ∧ r.codes = []) ∧
    (r.status = .invalidStream →
      r.data = [] ∧ r.codes = [] ∧ r.value.toNat = t.errCause.bits.toNat * 2 ^ 16 + t.errCode.toNat) ∧
    r.codes.length ≤ 1

/-! ### The invariant -/

/-- The state after reset meets the invariant, and so does every legal instance after a hardware reset. -/
def Obligations.InvariantHoldsAtReset : Prop :=
  State.reset.Inv ∧ ∀ s : State, s.params.Legal → (hardwareReset s).Inv

/-- Every step keeps the invariant, from every state that meets it. -/
def Obligations.InvariantIsKeptByEveryStep : Prop :=
  ∀ s t : State, s.Inv → step s = .next t → t.Inv

/-- R244, R10: from every state that meets the invariant a step answers a next state, whatever the host has issued: no
command can stop the block. -/
def Obligations.EveryStepGoesOn : Prop :=
  ∀ s : State, s.Inv → Safe (step s)

/-! ### The table (10_state.md, 40_table.md) -/

/-- R24: the string of a seed, the string of a learned code, their lengths, and that a code that is not present has none. -/
def Obligations.StringOfEveryCode : Prop :=
  ∀ (s : State) (k : Nat), s.Inv →
    (k < 256 → strOf s k = some [BitVec.ofNat 8 k]) ∧
    (256 ≤ k → k < s.nextCode.toNat → ∃ e str, Memory.read s.entries k = some e ∧ e.pre.toNat < k ∧
      strOf s e.pre.toNat = some str ∧ strOf s k = some (str ++ [e.suffix]) ∧
      2 ≤ (str ++ [e.suffix]).length ∧ (str ++ [e.suffix]).length ≤ k - 254) ∧
    (s.nextCode.toNat ≤ k → strOf s k = none) ∧
    (∀ x y, strOf s k = some (x :: y) → firstOf s k = some x)

/-- R111: a learned string without its last byte is the string of its prefix code, and every non-empty prefix of a present
string is a present string. -/
def Obligations.PrefixesOfStringsArePresent : Prop :=
  ∀ (s : State) (k : Nat) (str : List Byte), s.Inv → strOf s k = some str →
    (256 ≤ k → ∃ e, Memory.read s.entries k = some e ∧ s.Present e.pre.toNat ∧
      strOf s e.pre.toNat = some str.dropLast) ∧
    ∀ n, 1 ≤ n → n ≤ str.length → ∃ j ≤ k, s.Present j ∧ strOf s j = some (str.take n)

/-- R29: `FIND` answers the least present code that holds the string, none where there is none, and none for `[]`. -/
def Obligations.FindAnswersTheLeastCode : Prop :=
  ∀ s : State, s.Inv →
    (∀ str k, findCode s str = some k ↔
      (k < s.nextCode.toNat ∧ strOf s k = some str) ∧ ∀ j, j < s.nextCode.toNat → strOf s j = some str → k ≤ j) ∧
    (∀ str, findCode s str = none ↔ ∀ k < s.nextCode.toNat, strOf s k ≠ some str) ∧
    findCode s [] = none

/-- R113: in a table without duplicates, `FIND` on `STR(p) ++ [b]` is the match on the key `{p, b}`. -/
def Obligations.FindMatchesTheKeyWithoutDuplicates : Prop :=
  ∀ (s : State) (p : Code) (b : Byte) (str : List Byte), s.Inv →
    (∀ j k, s.Present j → s.Present k → strOf s j = strOf s k → j = k) → strOf s p.toNat = some str →
    ∀ k, findCode s (str ++ [b]) = some k ↔
      256 ≤ k ∧ s.Present k ∧ Memory.read s.entries k = some { pre := p, suffix := b }

/-- R112: a chain of `TBL_LOOKUP` commands computes `FIND` of any string. -/
def Obligations.LookupChainFindsAnyString : Prop :=
  ∀ (s : State) (str : List Byte), s.Inv → lookupByCommands s str = findCode s str

/-- R101, R131, R151: the three commands that reset the table complete in every state, and this is all they write; and their
words. -/
def Obligations.ResetAndStartCommands : Prop :=
  encode .tblReset = 0x10000000#32 ∧ encode .encStart = 0x50000000#32 ∧ encode .decStart = 0x80000000#32 ∧
  ∀ s : State,
    exec .tblReset s = .next { s with
      nextCode := 256, curWidth := 9, fsm := .idle, bufValid := false, bufCode := 0, prevCode := 0, prevExt := 0,
      err := false, errCause := .none, errCode := 0,
      output := s.output ++ [{ status := .ok, value := 0, data := [], codes := [] }] } ∧
    exec .encStart s = .next { s with
      nextCode := 256, curWidth := 9, fsm := .encRun, bufValid := false, bufCode := 0,
      err := false, errCause := .none, errCode := 0,
      output := s.output ++ [{ status := .ok, value := 0, data := [], codes := [] }] } ∧
    exec .decStart s = .next { s with
      nextCode := 256, curWidth := 9, fsm := .decFirst, prevCode := 0, prevExt := 0,
      err := false, errCause := .none, errCode := 0,
      output := s.output ++ [{ status := .ok, value := 0, data := [], codes := [] }] }

/-- R232, R100: after each of the three, the table is exactly the 256 single-byte seeds, and the slots keep their bits. -/
def Obligations.TableResetLeavesTheSeeds : Prop :=
  ∀ (i : Instr) (s t : State), IsTableReset i → exec i s = .next t →
    t.nextCode = 256 ∧ t.curWidth = 9 ∧ t.entries = s.entries ∧
    (∀ k < 256, strOf t k = some [BitVec.ofNat 8 k]) ∧ (∀ k ≥ 256, strOf t k = none)

/-- R102: both forms of `TBL_LOOKUP`, in every state: the byte itself; the least code that holds the candidate, which is a
learned one; `NOT_FOUND`; `OPERAND_ERROR`. Nothing but the response is written. -/
def Obligations.LookupAnswersTheLeastCode : Prop :=
  ∀ s : State, s.Inv →
    (∀ (p : Code) (b : Byte), (encode (.tblLookup b)).toNat = 0x20000000 + b.toNat ∧
      (encode (.tblLookupPrefix p b)).toNat = 0x21000000 + p.toNat * 2 ^ 8 + b.toNat) ∧
    (∀ b : Byte, exec (.tblLookup b) s =
      .next { s with output := s.output ++ [{ status := .ok, value := b.setWidth 32, data := [], codes := [] }] }) ∧
    (∀ (p : Code) (b : Byte), s.nextCode.toNat ≤ p.toNat → exec (.tblLookupPrefix p b) s =
      .next { s with output := s.output ++ [{ status := .operandError, value := 0, data := [], codes := [] }] }) ∧
    (∀ (p : Code) (b : Byte), p.toNat < s.nextCode.toNat → ∃ str, strOf s p.toNat = some str ∧
      ((∃ v : Value, 256 ≤ v.toNat ∧ v.toNat < s.nextCode.toNat ∧ strOf s v.toNat = some (str ++ [b]) ∧
          (∀ j, strOf s j = some (str ++ [b]) → v.toNat ≤ j) ∧
          exec (.tblLookupPrefix p b) s =
            .next { s with output := s.output ++ [{ status := .ok, value := v, data := [], codes := [] }] }) ∨
       ((∀ j, strOf s j ≠ some (str ++ [b])) ∧
          exec (.tblLookupPrefix p b) s =
            .next { s with output := s.output ++ [{ status := .notFound, value := 0, data := [], codes := [] }] })))

/-- R103, with R106 to R108 for the insertion: `TBL_LEARN` in every case. Outside `IDLE` it is `STATE_ERROR`; in `IDLE` a prefix
that is not present is `OPERAND_ERROR`; on a frozen table it answers `0xFFFFFFFF` and writes nothing; below capacity it
answers `NEXT_CODE`, where the entry is written, whose string is the prefix's and the byte, and every string present before
is the same. -/
def Obligations.LearnInEveryCase : Prop :=
  ∀ (s : State) (p : Code) (b : Byte), s.Inv →
    (encode (.tblLearn p b)).toNat = 0x31000000 + p.toNat * 2 ^ 8 + b.toNat ∧
    (s.fsm ≠ .idle → exec (.tblLearn p b) s =
      .next { s with output := s.output ++ [{ status := .stateError, value := 0, data := [], codes := [] }] }) ∧
    (s.fsm = .idle → s.nextCode.toNat ≤ p.toNat → exec (.tblLearn p b) s =
      .next { s with output := s.output ++ [{ status := .operandError, value := 0, data := [], codes := [] }] }) ∧
    (s.fsm = .idle → p.toNat < s.nextCode.toNat → s.nextCode = s.params.capacity → exec (.tblLearn p b) s =
      .next { s with output := s.output ++ [{ status := .ok, value := 0xFFFFFFFF, data := [], codes := [] }] }) ∧
    (s.fsm = .idle → p.toNat < s.nextCode.toNat → s.nextCode ≠ s.params.capacity →
      ∃ t str, exec (.tblLearn p b) s = .next t ∧ Inserted s p b t ∧
        t = { s with
          entries := t.entries, nextCode := t.nextCode, curWidth := t.curWidth
          output := s.output ++ [{ status := .ok, value := s.nextCode.setWidth 32, data := [], codes := [] }] } ∧
        strOf s p.toNat = some str ∧ strOf t s.nextCode.toNat = some (str ++ [b]) ∧
        (∀ k < s.nextCode.toNat, strOf t k = strOf s k))

/-- R104: `TBL_RESOLVE` answers the string of a present code with its length, and `NOT_FOUND` for every other code. -/
def Obligations.ResolveAnswersTheString : Prop :=
  ∀ (s : State) (c : Code), s.Inv →
    (encode (.tblResolve c)).toNat = 0x40000000 + c.toNat * 2 ^ 8 ∧
    (c.toNat < s.nextCode.toNat → ∃ str, strOf s c.toNat = some str ∧
      exec (.tblResolve c) s =
        .next { s with output := s.output ++
          [{ status := .ok, value := BitVec.ofNat 32 str.length, data := str, codes := [] }] } ∧
      str.length < 2 ^ 32) ∧
    (s.nextCode.toNat ≤ c.toNat →
      exec (.tblResolve c) s =
        .next { s with output := s.output ++ [{ status := .notFound, value := 0, data := [], codes := [] }] })

/-! ### The encoder (41_encoder.md) -/

/-- R132: `ENC_BYTE` in every case. Outside `ENC_RUN` it is `STATE_ERROR`. In `ENC_RUN`, where the buffer's string and the byte
make a present string, the buffer becomes its code and nothing is emitted; elsewhere the buffer is not empty, its code is
emitted, the candidate is learned unless the table is frozen, and the buffer becomes the byte. Nothing else is written. -/
def Obligations.EncodeByteExtendsOrEmits : Prop :=
  ∀ (s : State) (b : Byte), s.Inv →
    (encode (.encByte b)).toNat = 0x60000000 + b.toNat ∧
    (s.fsm ≠ .encRun → exec (.encByte b) s =
      .next { s with output := s.output ++ [{ status := .stateError, value := 0, data := [], codes := [] }] }) ∧
    (s.fsm = .encRun →
      ∃ buf, (s.bufValid = false → buf = []) ∧ (s.bufValid = true → strOf s s.bufCode.toNat = some buf) ∧
        (∀ k, findCode s (buf ++ [b]) = some k → ∃ c : Code, c.toNat = k ∧
          exec (.encByte b) s = .next { s with
            bufCode := c, bufValid := true
            output := s.output ++ [{ status := .ok, value := 0, data := [], codes := [] }] }) ∧
        (findCode s (buf ++ [b]) = none → s.bufValid = true ∧
          ∃ t, exec (.encByte b) s = .next t ∧ Inserted s s.bufCode b t ∧
            t = { s with
              entries := t.entries, nextCode := t.nextCode, curWidth := t.curWidth
              bufCode := b.setWidth 16, bufValid := true
              output := s.output ++ [{ status := .ok, value := 1, data := [], codes := [s.bufCode] }] }))

/-- R136: the first byte of a run makes the buffer exactly that byte and emits nothing. -/
def Obligations.FirstByteBecomesTheBuffer : Prop :=
  ∀ (s : State) (b : Byte), s.Inv → s.fsm = .encRun → s.bufValid = false →
    exec (.encByte b) s = .next { s with
      bufCode := b.setWidth 16, bufValid := true
      output := s.output ++ [{ status := .ok, value := 0, data := [], codes := [] }] }

/-- R133: `ENC_FLUSH` emits the buffer if it is not empty, ends the run and keeps the table; outside `ENC_RUN` it is
`STATE_ERROR`. -/
def Obligations.FlushEmitsTheBuffer : Prop :=
  encode .encFlush = 0x70000000#32 ∧
  ∀ s : State,
    (s.fsm ≠ .encRun → exec .encFlush s =
      .next { s with output := s.output ++ [{ status := .stateError, value := 0, data := [], codes := [] }] }) ∧
    (s.fsm = .encRun → s.bufValid = true → exec .encFlush s = .next { s with
      bufValid := false, bufCode := 0, fsm := .idle
      output := s.output ++ [{ status := .ok, value := 1, data := [], codes := [s.bufCode] }] }) ∧
    (s.fsm = .encRun → s.bufValid = false → exec .encFlush s = .next { s with
      bufValid := false, bufCode := 0, fsm := .idle
      output := s.output ++ [{ status := .ok, value := 0, data := [], codes := [] }] })

/-- R202: the encoder raises no error; `ENC_BYTE` and `ENC_FLUSH` fail only by rejection. -/
def Obligations.EncoderRaisesNoError : Prop :=
  ∀ (s : State) (i : Instr), s.Inv → (i = .encFlush ∨ ∃ b, i = .encByte b) →
    ∃ t r, Responds i s r t ∧ (r.status = .ok ∨ r.status = .stateError) ∧ t.err = s.err

/-- R52, R139 (b): every code the block emits is below `NEXT_CODE`, and so below `CAPACITY`. -/
def Obligations.EmittedCodesAreBelowCapacity : Prop :=
  ∀ (i : Instr) (s : State) (r : Response) (t : State), s.Inv → Responds i s r t →
    ∀ c ∈ r.codes, c.toNat < s.nextCode.toNat ∧ c.toNat < s.params.capacity.toNat

/-! ### The decoder (42_decoder.md, 60_exceptions.md) -/

/-- R155: the first code of a run: a seed is output and becomes the previous entry, any other code fails. -/
def Obligations.FirstCodeMustBeASeed : Prop :=
  ∀ (s : State) (c : Code), s.fsm = .decFirst →
    (c.toNat < 256 → exec (.decCode c) s = .next { s with
      prevCode := c, prevExt := 0, fsm := .decRun
      output := s.output ++ [{ status := .ok, value := 1, data := [c.setWidth 8], codes := [] }] }) ∧
    (256 ≤ c.toNat → exec (.decCode c) s = .next (failedState s .firstNotSeed c))

/-- R152, a present code in `DEC_RUN`: its string is output, the previous string and its first byte are learned unless the
table is frozen, and it becomes the previous entry. Nothing else is written. -/
def Obligations.PresentCodeIsOutputAndLearned : Prop :=
  ∀ (s : State) (c : Code), s.Inv → s.fsm = .decRun → c.toNat < s.nextCode.toNat →
    ∃ x y t, strOf s c.toNat = some (x :: y) ∧ exec (.decCode c) s = .next t ∧ Inserted s s.prevCode x t ∧
      t = { s with
        entries := t.entries, nextCode := t.nextCode, curWidth := t.curWidth, prevCode := c, prevExt := 0
        output := s.output ++ [bytesResponse (x :: y)] }

/-- R153, R159: the next-code repair below capacity: the previous string and its own first byte are output and learned at
the repaired code, which becomes the previous entry. -/
def Obligations.RepairedEntryIsLearnedAtItsCode : Prop :=
  ∀ (s : State) (c : Code), s.Inv → s.fsm = .decRun → c.toNat = s.nextCode.toNat → s.nextCode ≠ s.params.capacity →
    ∃ x y t, strOf s s.prevCode.toNat = some (x :: y) ∧ exec (.decCode c) s = .next t ∧ Inserted s s.prevCode x t ∧
      t = { s with
        entries := t.entries, nextCode := t.nextCode, curWidth := t.curWidth, prevCode := c, prevExt := 0
        output := s.output ++ [bytesResponse (x :: y ++ [x])] } ∧
      strOf t c.toNat = some (x :: y ++ [x])

/-- R157, R158: the repair on a frozen table: the previous entry (the string of `PREV_CODE` and `PREV_EXT` copies of its first
byte) and its first byte once more are output, nothing is learned, and `PREV_EXT` counts; it fails when the counter is full. -/
def Obligations.FrozenRepairCountsOrOverflows : Prop :=
  ∀ (s : State) (c : Code), s.Inv → s.fsm = .decRun → s.nextCode = s.params.capacity →
    c.toNat = s.params.capacity.toNat →
    ∃ x y, strOf s s.prevCode.toNat = some (x :: y) ∧
      (s.prevExt.toNat ≠ 2 ^ 32 - 1 → exec (.decCode c) s = .next { s with
        prevExt := s.prevExt + 1
        output := s.output ++ [bytesResponse (x :: y ++ List.replicate s.prevExt.toNat x ++ [x])] }) ∧
      (s.prevExt.toNat = 2 ^ 32 - 1 → exec (.decCode c) s = .next (failedState s .extOverflow c))

/-- R162: in `DEC_RUN` every code above `NEXT_CODE` fails with `UNKNOWN_CODE`. -/
def Obligations.CodeAboveNextFails : Prop :=
  ∀ (s : State) (c : Code), s.fsm = .decRun → s.nextCode.toNat < c.toNat →
    exec (.decCode c) s = .next (failedState s .unknownCode c)

/-- R154: `DEC_END` in each of its three states, and `STATE_ERROR` in the other two. -/
def Obligations.EndOfTheCodeStream : Prop :=
  encode .decEnd = 0xA0000000#32 ∧
  ∀ s : State,
    (s.fsm = .idle ∨ s.fsm = .encRun → exec .decEnd s =
      .next { s with output := s.output ++ [{ status := .stateError, value := 0, data := [], codes := [] }] }) ∧
    (s.fsm = .decFirst → exec .decEnd s = .next { s with
      fsm := .idle, err := true, errCause := .emptyStream, errCode := 0
      output := s.output ++ [{ status := .invalidStream, value := 0x00010000, data := [], codes := [] }] }) ∧
    (s.fsm = .decFailed → exec .decEnd s = .next { s with
      fsm := .idle
      output := s.output ++ [failureResponse s.errCause s.errCode] }) ∧
    (s.fsm = .decRun → exec .decEnd s = .next { s with
      fsm := .idle
      output := s.output ++ [{ status := .ok, value := 0, data := [], codes := [] }] })

/-- R203, with R204 and R201: every failure of `DEC_CODE` in a run that has not failed writes the error record and `DEC_FAILED`
and nothing else, under exactly the conditions of its cause; the empty stream of `DEC_END` records the same fields and goes
to `IDLE`. -/
def Obligations.FailuresArePrecise : Prop :=
  (∀ s : State, s.fsm = .decFirst → exec .decEnd s = .next { failedState s .emptyStream 0 with fsm := .idle }) ∧
  ∀ (s t : State) (c : Code) (r : Response), s.Inv → Responds (.decCode c) s r t → r.status = .invalidStream →
    s.fsm ≠ .decFailed →
    ∃ cause, t = failedState s cause c ∧
      ((cause = .firstNotSeed ∧ s.fsm = .decFirst ∧ 256 ≤ c.toNat) ∨
       (cause = .unknownCode ∧ s.fsm = .decRun ∧ s.nextCode.toNat < c.toNat) ∨
       (cause = .extOverflow ∧ s.fsm = .decRun ∧ c.toNat = s.nextCode.toNat ∧ s.nextCode = s.params.capacity ∧
         s.prevExt.toNat = 2 ^ 32 - 1))

/-- R205: in `DEC_FAILED` every code repeats the recorded failure and changes nothing, `DEC_END` repeats it and goes to `IDLE`;
and of the commands only a table reset clears `STATUS.ERR`. -/
def Obligations.FailureIsSticky : Prop :=
  (∀ (s : State) (c : Code), s.fsm = .decFailed → exec (.decCode c) s = .next { s with
      output := s.output ++ [failureResponse s.errCause s.errCode] }) ∧
  (∀ s : State, s.fsm = .decFailed → exec .decEnd s = .next { s with
      fsm := .idle
      output := s.output ++ [failureResponse s.errCause s.errCode] }) ∧
  (∀ (i : Instr) (s t : State), exec i s = .next t → s.err = true → ¬ IsTableReset i → t.err = true)

/-- R244: the length of what one `DEC_CODE` outputs. -/
def Obligations.OutputLengthIsBounded : Prop :=
  ∀ (s t : State) (c : Code) (r : Response), s.Inv → Responds (.decCode c) s r t →
    r.data.length ≤ (s.params.capacity.toNat - 254) + s.prevExt.toNat + 1

/-! ### Status registers (43_status.md) -/

/-- R180, with the map of R181 and the fields of R36: `REG_READ` answers the register of its index, field by field for
`STATUS`, `ILLEGAL_COMMAND` for a reserved index, and writes nothing. -/
def Obligations.RegisterReadsFollowTheMap : Prop :=
  ∀ (s : State) (r : Byte),
    (r.toNat ≤ 9 → (encode (.regRead r)).toNat = 0xB0000000 + r.toNat ∧ ∃ v : Value, exec (.regRead r) s =
        .next { s with output := s.output ++ [{ status := .ok, value := v, data := [], codes := [] }] } ∧
      (r = 0 → v.toNat = s.fsm.bits.toNat + 8 * s.err.toNat +
        (if s.nextCode = s.params.capacity then 16 else 0) + 32 * s.bufValid.toNat) ∧
      (r = 1 → v.toNat = s.nextCode.toNat) ∧ (r = 2 → v.toNat = s.curWidth.toNat) ∧
      (r = 3 → v.toNat = s.params.capacity.toNat) ∧ (r = 4 → v.toNat = s.params.maxWidth.toNat) ∧
      (r = 5 → v.toNat = s.bufCode.toNat) ∧ (r = 6 → v.toNat = s.prevCode.toNat) ∧
      (r = 7 → v.toNat = s.prevExt.toNat) ∧ (r = 8 → v.toNat = s.errCause.bits.toNat) ∧
      (r = 9 → v.toNat = s.errCode.toNat)) ∧
    (9 < r.toNat → exec (.regRead r) s =
      .next { s with output := s.output ++ [{ status := .illegalCommand, value := 0, data := [], codes := [] }] })

/-! ### Rules about every command -/

/-- R207: a command is answered `STATE_ERROR` exactly where the legality matrix marks it. -/
def Obligations.StateErrorExactlyOnTheMatrix : Prop :=
  ∀ (i : Instr) (s : State) (r : Response) (t : State), Responds i s r t →
    (r.status = .stateError ↔ StateErrorAt i s.fsm)

/-- R208: `OPERAND_ERROR` exactly for a prefix code that is not present, where the state allows the command. -/
def Obligations.OperandErrorExactlyOnAbsentPrefixes : Prop :=
  ∀ (i : Instr) (s : State) (r : Response) (t : State), Responds i s r t →
    (r.status = .operandError ↔
      (∃ p b, i = .tblLookupPrefix p b ∧ s.nextCode.toNat ≤ p.toNat) ∨
      (∃ p b, i = .tblLearn p b ∧ s.fsm = .idle ∧ s.nextCode.toNat ≤ p.toNat))

/-- R206: a rejected command writes nothing but its response. -/
def Obligations.RejectedCommandWritesNothing : Prop :=
  ∀ (i : Instr) (s : State) (r : Response) (t : State), Responds i s r t → r.status.IsRejection →
    t = { s with output := s.output ++ [{ status := r.status, value := 0, data := [], codes := [] }] }

/-- R210: the transitions of the FSM; a rejected command never changes the state. -/
def Obligations.FsmTransitions : Prop :=
  ∀ (i : Instr) (s : State) (r : Response) (t : State), Responds i s r t →
    (r.status.IsRejection → t.fsm = s.fsm) ∧ (¬ r.status.IsRejection → t.fsm = fsmAfter s.fsm i r.status)

/-- R39: which commands write each piece of state, for every command; the parameters are written by none. -/
def Obligations.OnlyTheseCommandsWrite : Prop :=
  ∀ (i : Instr) (s t : State), exec i s = .next t →
    t.params = s.params ∧ t.input = s.input ∧ t.freeIndex = s.freeIndex ∧
    ((∀ p b, i ≠ .tblLearn p b) → (∀ b, i ≠ .encByte b) → (∀ c, i ≠ .decCode c) →
      t.entries = s.entries ∧ (¬ IsTableReset i → t.nextCode = s.nextCode ∧ t.curWidth = s.curWidth)) ∧
    (¬ IsTableReset i → i ≠ .encFlush → (∀ c, i ≠ .decCode c) → i ≠ .decEnd → t.fsm = s.fsm) ∧
    (i ≠ .tblReset → i ≠ .encStart → (∀ b, i ≠ .encByte b) → i ≠ .encFlush →
      t.bufValid = s.bufValid ∧ t.bufCode = s.bufCode) ∧
    (i ≠ .tblReset → i ≠ .decStart → (∀ c, i ≠ .decCode c) → t.prevCode = s.prevCode ∧ t.prevExt = s.prevExt) ∧
    (¬ IsTableReset i → (∀ c, i ≠ .decCode c) → i ≠ .decEnd →
      t.err = s.err ∧ t.errCause = s.errCause ∧ t.errCode = s.errCode)

/-- R61: the reads have no side effect, and a second table reset in a row leaves the state of the first. -/
def Obligations.ReadsArePureAndResetsIdempotent : Prop :=
  (∀ (i : Instr) (s t : State), exec i s = .next t →
    ((∃ b, i = .tblLookup b) ∨ (∃ p b, i = .tblLookupPrefix p b) ∨ (∃ c, i = .tblResolve c) ∨ ∃ r, i = .regRead r) →
    t = { s with output := t.output } ∧
    ∃ r, t.output = s.output ++ [r] ∧ exec i t = .next { t with output := t.output ++ [r] }) ∧
  (∀ (i : Instr) (s t u : State), IsTableReset i → exec i s = .next t → exec i t = .next u →
    u = { t with output := u.output })

/-- R26, R27, R183: `NEXT_CODE` is written only by a table reset and by an insertion, which adds 1; a frozen table stays
frozen, with the same entries, until the next table reset. -/
def Obligations.NextCodeGrowsUntilFrozen : Prop :=
  ∀ (i : Instr) (s t : State), s.Inv → exec i s = .next t → ¬ IsTableReset i →
    (t.nextCode.toNat = s.nextCode.toNat ∨ t.nextCode.toNat = s.nextCode.toNat + 1) ∧
    (∀ k < s.nextCode.toNat, strOf t k = strOf s k) ∧
    (s.nextCode = s.params.capacity → t.nextCode = s.nextCode ∧ t.entries = s.entries)

/-- R109: `CUR_WIDTH` and `MAX_WIDTH` are inert: two states that differ in nothing else are taken by every command to states
that differ in nothing else, with the same responses; `REG_READ` of the two registers differs in the value alone. -/
def Obligations.CodeWidthIsInert : Prop :=
  ∀ (i : Instr) (s t : State), blankWidth s = blankWidth t →
    (i ≠ .regRead 2 → i ≠ .regRead 4 → mapNext blankWidth (exec i s) = mapNext blankWidth (exec i t)) ∧
    (i = .regRead 2 ∨ i = .regRead 4 → ∃ v w : Value,
      mapNext blankWidth (exec i s) =
        .next (blankWidth { s with output := s.output ++ [{ status := .ok, value := v, data := [], codes := [] }] }) ∧
      mapNext blankWidth (exec i t) =
        .next (blankWidth { s with output := s.output ++ [{ status := .ok, value := w, data := [], codes := [] }] }))

/-! ### Whole runs (R83, R137, R160, R161) -/

/-- R137, R245: `COMPRESS d` from any state of a legal instance emits `compress(d)`, which is what is observed of the run, and
the run ends in `IDLE`. -/
def Obligations.EncodeRunIsCompress : Prop :=
  ∀ (s : State) (d : List Byte) (rest : List HostEvent), s.params.Legal →
    ∃ t rs, steps (d.length + 2) { s with input := issue (compressCommands d) ++ rest } = .next t ∧
      t.input = rest ∧ t.fsm = .idle ∧ t.params = s.params ∧ t.output = s.output ++ rs ∧
      (∀ r ∈ rs, r.status = .ok) ∧
      observe (transcript (d.length + 2) { s with input := issue (compressCommands d) ++ rest }) =
        some (.encoded (runCodes rs) .ok) ∧
      (runCodes rs).map BitVec.toNat = compress s.params.capacity.toNat d

/-- R160, R158, R245: of `DECOMPRESS cs` from any state of a legal instance the output `decompress(cs)` is observed with status
`OK`, or status `INVALID_STREAM` where that fails; fewer than `2^32` codes keep it from the bound of R158. -/
def Obligations.DecodeRunIsDecompress : Prop :=
  ∀ (s : State) (cs : List Code) (rest : List HostEvent), s.params.Legal → cs.length < 2 ^ 32 →
    ∃ t rs, steps (cs.length + 2) { s with input := issue (decompressCommands cs) ++ rest } = .next t ∧
      t.input = rest ∧ t.fsm = .idle ∧ t.params = s.params ∧ t.output = s.output ++ rs ∧
      (∀ d, decompress s.params.capacity.toNat (cs.map BitVec.toNat) = some d →
        observe (transcript (cs.length + 2) { s with input := issue (decompressCommands cs) ++ rest }) =
          some (.decoded d .ok) ∧ ∀ r ∈ rs, r.status = .ok) ∧
      (decompress s.params.capacity.toNat (cs.map BitVec.toNat) = none →
        ∃ bytes, observe (transcript (cs.length + 2) { s with input := issue (decompressCommands cs) ++ rest }) =
          some (.decoded bytes .invalidStream))

/-- R236, R240, R81: lookups, resolves and register reads interleaved in a run, anywhere after its start, are no part of it:
what is observed is `compress` or `decompress` of the run's own commands. -/
def Obligations.InterleavedReadsAreNoPartOfTheRun : Prop :=
  ∀ (s : State) (is : List Instr), s.params.Legal →
    (∀ d : List Byte, is.filter (fun i => !isRead i) = d.map .encByte ++ [.encFlush] →
      ∃ codes, observe (transcript (is.length + 1) { s with input := issue (.encStart :: is) }) =
          some (.encoded codes .ok) ∧
        codes.map BitVec.toNat = compress s.params.capacity.toNat d) ∧
    (∀ cs : List Code, cs.length < 2 ^ 32 → is.filter (fun i => !isRead i) = cs.map .decCode ++ [.decEnd] →
      (∀ d, decompress s.params.capacity.toNat (cs.map BitVec.toNat) = some d →
        observe (transcript (is.length + 1) { s with input := issue (.decStart :: is) }) = some (.decoded d .ok)) ∧
      (decompress s.params.capacity.toNat (cs.map BitVec.toNat) = none →
        ∃ bytes, observe (transcript (is.length + 1) { s with input := issue (.decStart :: is) }) =
          some (.decoded bytes .invalidStream)))

/-- R161 (d), (e): the round trip of every non-empty byte string, and the failure of the empty one, at every capacity that
holds the seeds. -/
def Obligations.DecompressInvertsCompress : Prop :=
  ∀ (capacity : Nat) (d : List Byte), 256 ≤ capacity →
    (d ≠ [] → decompress capacity (compress capacity d) = some d) ∧
    compress capacity [] = [] ∧ decompress capacity [] = none

/-- R161 (b): two legal instances with the same capacity, one run over `d` and the other over the codes it emits: the decoder
outputs `d`, and when the encoder has taken every byte and the decoder every code, before either run ends, their tables are
equal (R245: nothing is said of a table after its run). -/
def Obligations.EncoderAndDecoderStayInLockStep : Prop :=
  ∀ (s u : State) (d : List Byte), s.params.Legal → u.params.Legal → u.params.capacity = s.params.capacity →
    d ≠ [] → d.length < 2 ^ 32 →
    ∃ t rs v qs t' v', steps (d.length + 1) { s with input := issue (compressCommands d) } = .next t ∧
      t.input = issue [.encFlush] ∧ step t = .next t' ∧ t'.output = s.output ++ rs ∧
      steps ((runCodes rs).length + 1) { u with input := issue (decompressCommands (runCodes rs)) } = .next v ∧
      v.input = issue [.decEnd] ∧ step v = .next v' ∧ v'.output = u.output ++ qs ∧
      observe (transcript ((runCodes rs).length + 2) { u with input := issue (decompressCommands (runCodes rs)) }) =
        some (.decoded d .ok) ∧ (∀ q ∈ qs, q.status = .ok) ∧
      v.nextCode = t.nextCode ∧ ∀ k, strOf v k = strOf t k

/-- R135: a run over a non-empty string that emits `m` codes makes `m - 1` learn attempts, of which as many succeed as the
capacity allows; they are counted by `NEXT_CODE` before the flush ends the run (R214, R245). -/
def Obligations.LearnsAreOneFewerThanCodes : Prop :=
  ∀ (s : State) (d : List Byte), s.params.Legal → d ≠ [] →
    ∃ t rs t', steps (d.length + 1) { s with input := issue (compressCommands d) } = .next t ∧
      t.input = issue [.encFlush] ∧ step t = .next t' ∧ t'.output = s.output ++ rs ∧ 1 ≤ (runCodes rs).length ∧
      t.nextCode.toNat = 256 + min ((runCodes rs).length - 1) (s.params.capacity.toNat - 256)

/-- R139 (a): a single byte compresses to its seed. -/
def Obligations.SingleByteCompressesToItsSeed : Prop :=
  ∀ (capacity : Nat) (x : Byte), 256 ≤ capacity → compress capacity [x] = [x.toNat]

/-- R53, R54, R56: the wire bytes of a code stream are two per code, most significant byte first, and read back as the same
stream; an odd number of bytes is no code stream. -/
def Obligations.WireCarriesEveryCodeStream : Prop :=
  (∀ cs : List Code, (serialise cs).length = 2 * cs.length ∧ deserialise (serialise cs) = some cs) ∧
  (∀ (cs : List Code) (c : Code), ∃ h l : Byte, c.toNat = 256 * h.toNat + l.toNat ∧
    serialise (c :: cs) = h :: l :: serialise cs) ∧
  (∀ bs : List Byte, deserialise bs = none ↔ bs.length % 2 = 1)
end

