-- ==== Sys2Proof/Laws/Decode.lean ====
section
/-! SUPPORT. The word format: reading the fields of a packed word, and packing the fields of a word (R71). -/

namespace Sys2Proof

/-- The value of a packed word, field by field (R84). -/
theorem packFields_toNat (f : Fields) :
    (packFields f).toNat =
      f.op.toNat * 2 ^ 28 + f.rsv.toNat * 2 ^ 25 + f.p.toNat * 2 ^ 24 + f.code.toNat * 2 ^ 8 + f.byte.toNat := by
  have h1 := f.op.isLt
  have h2 := f.rsv.isLt
  have h3 := f.p.isLt
  have h4 := f.code.isLt
  have h5 := f.byte.isLt
  simp only [packFields, BitVec.toNat_append]
  rw [← Nat.shiftLeft_add_eq_or_of_lt h5, ← Nat.shiftLeft_add_eq_or_of_lt h4, ← Nat.shiftLeft_add_eq_or_of_lt h3,
    ← Nat.shiftLeft_add_eq_or_of_lt h2]
  simp only [Nat.shiftLeft_eq]
  omega

/-- Each field of a word, as a number. -/
theorem fieldsOf_toNat (w : CommandWord) :
    (fieldsOf w).op.toNat = w.toNat / 2 ^ 28 ∧ (fieldsOf w).rsv.toNat = w.toNat / 2 ^ 25 % 8 ∧
    (fieldsOf w).p.toNat = w.toNat / 2 ^ 24 % 2 ∧ (fieldsOf w).code.toNat = w.toNat / 2 ^ 8 % 65536 ∧
    (fieldsOf w).byte.toNat = w.toNat % 256 := by
  have := w.isLt
  simp only [fieldsOf, BitVec.extractLsb'_toNat, Nat.shiftRight_eq_div_pow]
  norm_num
  omega

/-- Reading back the fields of a packed word. -/
theorem fieldsOf_packFields (f : Fields) : fieldsOf (packFields f) = f := by
  obtain ⟨h1, h2, h3, h4, h5⟩ := fieldsOf_toNat (packFields f)
  rw [packFields_toNat] at h1 h2 h3 h4 h5
  have := f.op.isLt
  have := f.rsv.isLt
  have := f.p.isLt
  have := f.code.isLt
  have := f.byte.isLt
  have e1 : (fieldsOf (packFields f)).op = f.op := BitVec.eq_of_toNat_eq (by omega)
  have e2 : (fieldsOf (packFields f)).rsv = f.rsv := BitVec.eq_of_toNat_eq (by omega)
  have e3 : (fieldsOf (packFields f)).p = f.p := BitVec.eq_of_toNat_eq (by omega)
  have e4 : (fieldsOf (packFields f)).code = f.code := BitVec.eq_of_toNat_eq (by omega)
  have e5 : (fieldsOf (packFields f)).byte = f.byte := BitVec.eq_of_toNat_eq (by omega)
  cases f
  cases h : fieldsOf (packFields _)
  rw [h] at e1 e2 e3 e4 e5
  simp only at e1 e2 e3 e4 e5
  subst e1 e2 e3 e4 e5
  rfl

/-- Packing the fields of a word gives the word back: the five fields cover it. -/
theorem packFields_fieldsOf (w : CommandWord) : packFields (fieldsOf w) = w := by
  obtain ⟨h1, h2, h3, h4, h5⟩ := fieldsOf_toNat w
  refine BitVec.eq_of_toNat_eq ?_
  rw [packFields_toNat, h1, h2, h3, h4, h5]
  omega

end Sys2Proof
end

