-- ==== Sys2Proof/Laws/Memory.lean ====
section
/-! SUPPORT. The laws of the entry store: read after write, and that a write keeps the canonical form. -/

namespace Sys2Proof.Machine

/-- A slot reads as the entry just written to it. -/
@[simp] theorem Memory.read_write_same (m : Memory) (k : Nat) (e : Entry) :
    Memory.read (Memory.write m k e) k = some e := by
  induction m with
  | nil => simp [Memory.write, Memory.read]
  | cons x rest ih =>
    obtain ⟨j, d⟩ := x
    rcases lt_trichotomy k j with h | h | h
    · simp [Memory.write, Memory.read, h]
    · simp [Memory.write, Memory.read, h]
    · have h1 : ¬ k < j := by omega
      have h2 : k ≠ j := by omega
      simp [Memory.write, Memory.read, h1, h2, Ne.symm h2, ih]

/-- A write leaves every other slot alone. -/
theorem Memory.read_write_other (m : Memory) {j k : Nat} (e : Entry) (hne : j ≠ k) :
    Memory.read (Memory.write m k e) j = Memory.read m j := by
  induction m with
  | nil => simp [Memory.write, Memory.read, Ne.symm hne]
  | cons x rest ih =>
    obtain ⟨i, d⟩ := x
    by_cases h : k < i
    · simp [Memory.write, Memory.read, h, Ne.symm hne]
    · by_cases h' : k = i
      · subst h'
        simp [Memory.write, Memory.read, Ne.symm hne]
      · simp [Memory.write, Memory.read, h, h', ih]

/-- The cells of a store after a write: the one written, or a cell it held before. -/
theorem Memory.mem_write {m : Memory} {k : Nat} {e : Entry} {x : Nat × Entry} (hx : x ∈ Memory.write m k e) :
    x = (k, e) ∨ x ∈ m := by
  induction m with
  | nil => simpa [Memory.write] using hx
  | cons y rest ih =>
    obtain ⟨j, d⟩ := y
    simp only [Memory.write] at hx
    split at hx
    · simpa using hx
    · split at hx
      · rcases List.mem_cons.mp hx with h | h
        · exact .inl h
        · exact .inr (List.mem_cons_of_mem _ h)
      · rcases List.mem_cons.mp hx with h | h
        · exact .inr (h ▸ List.mem_cons_self)
        · rcases ih h with h | h
          · exact .inl h
          · exact .inr (List.mem_cons_of_mem _ h)

/-- A write keeps the canonical form. -/
theorem Memory.write_wf {m : Memory} (hm : Memory.wf m) (k : Nat) (e : Entry) : Memory.wf (Memory.write m k e) := by
  induction m with
  | nil => simp [Memory.write, Memory.wf]
  | cons y rest ih =>
    obtain ⟨j, d⟩ := y
    have hm' := List.pairwise_cons.mp hm
    rcases lt_trichotomy k j with h | h | h
    · simp only [Memory.write, h, if_true]
      refine List.pairwise_cons.mpr ⟨fun x hx => ?_, hm⟩
      rcases List.mem_cons.mp hx with rfl | hx
      · exact h
      · exact h.trans (hm'.1 x hx)
    · subst h
      simp only [Memory.write, lt_irrefl, if_false, if_true]
      exact List.pairwise_cons.mpr ⟨hm'.1, hm'.2⟩
    · have h1 : ¬ k < j := by omega
      have h2 : k ≠ j := by omega
      simp only [Memory.write, h1, h2, if_false]
      refine List.pairwise_cons.mpr ⟨fun x hx => ?_, ih hm'.2⟩
      rcases Memory.mem_write hx with rfl | hx
      · exact h
      · exact hm'.1 x hx

/-- A slot that reads as an entry is listed with it. -/
theorem Memory.mem_of_read {m : Memory} {k : Nat} {e : Entry} (h : Memory.read m k = some e) : (k, e) ∈ m := by
  induction m with
  | nil => simp [Memory.read] at h
  | cons y rest ih =>
    obtain ⟨j, d⟩ := y
    simp only [Memory.read] at h
    split at h
    · rename_i hj
      cases h
      exact hj ▸ List.mem_cons_self
    · exact List.mem_cons_of_mem _ (ih h)

/-- The store after reset is in the canonical form. -/
theorem reset_store_wf : Memory.wf State.reset.entries := List.Pairwise.nil

end Sys2Proof.Machine
end

