-- ==== Sys2Proof/Laws/State.lean ====
section
/-! SUPPORT. One lemma per field per named update of State: what a later proof cites in place of unfolding the update. -/

namespace Sys2Proof.Machine

/-! ### `respond` -/

@[simp] theorem respond_params (s : State) (st : Status) (v : Value) (d : List Byte) (c : List Code) : (respond s st v d c).params = s.params := rfl
@[simp] theorem respond_entries (s : State) (st : Status) (v : Value) (d : List Byte) (c : List Code) : (respond s st v d c).entries = s.entries := rfl
@[simp] theorem respond_nextCode (s : State) (st : Status) (v : Value) (d : List Byte) (c : List Code) : (respond s st v d c).nextCode = s.nextCode := rfl
@[simp] theorem respond_curWidth (s : State) (st : Status) (v : Value) (d : List Byte) (c : List Code) : (respond s st v d c).curWidth = s.curWidth := rfl
@[simp] theorem respond_fsm (s : State) (st : Status) (v : Value) (d : List Byte) (c : List Code) : (respond s st v d c).fsm = s.fsm := rfl
@[simp] theorem respond_bufValid (s : State) (st : Status) (v : Value) (d : List Byte) (c : List Code) : (respond s st v d c).bufValid = s.bufValid := rfl
@[simp] theorem respond_bufCode (s : State) (st : Status) (v : Value) (d : List Byte) (c : List Code) : (respond s st v d c).bufCode = s.bufCode := rfl
@[simp] theorem respond_prevCode (s : State) (st : Status) (v : Value) (d : List Byte) (c : List Code) : (respond s st v d c).prevCode = s.prevCode := rfl
@[simp] theorem respond_prevExt (s : State) (st : Status) (v : Value) (d : List Byte) (c : List Code) : (respond s st v d c).prevExt = s.prevExt := rfl
@[simp] theorem respond_err (s : State) (st : Status) (v : Value) (d : List Byte) (c : List Code) : (respond s st v d c).err = s.err := rfl
@[simp] theorem respond_errCause (s : State) (st : Status) (v : Value) (d : List Byte) (c : List Code) : (respond s st v d c).errCause = s.errCause := rfl
@[simp] theorem respond_errCode (s : State) (st : Status) (v : Value) (d : List Byte) (c : List Code) : (respond s st v d c).errCode = s.errCode := rfl
@[simp] theorem respond_input (s : State) (st : Status) (v : Value) (d : List Byte) (c : List Code) : (respond s st v d c).input = s.input := rfl
@[simp] theorem respond_output (s : State) (st : Status) (v : Value) (d : List Byte) (c : List Code) : (respond s st v d c).output = s.output ++ [{ status := st, value := v, data := d, codes := c }] := rfl
@[simp] theorem respond_freeIndex (s : State) (st : Status) (v : Value) (d : List Byte) (c : List Code) : (respond s st v d c).freeIndex = s.freeIndex := rfl

/-! ### `tableReset` -/

@[simp] theorem tableReset_params (s : State) : (tableReset s).params = s.params := rfl
@[simp] theorem tableReset_entries (s : State) : (tableReset s).entries = s.entries := rfl
@[simp] theorem tableReset_nextCode (s : State) : (tableReset s).nextCode = 256#17 := rfl
@[simp] theorem tableReset_curWidth (s : State) : (tableReset s).curWidth = 9#5 := rfl
@[simp] theorem tableReset_fsm (s : State) : (tableReset s).fsm = s.fsm := rfl
@[simp] theorem tableReset_bufValid (s : State) : (tableReset s).bufValid = s.bufValid := rfl
@[simp] theorem tableReset_bufCode (s : State) : (tableReset s).bufCode = s.bufCode := rfl
@[simp] theorem tableReset_prevCode (s : State) : (tableReset s).prevCode = s.prevCode := rfl
@[simp] theorem tableReset_prevExt (s : State) : (tableReset s).prevExt = s.prevExt := rfl
@[simp] theorem tableReset_err (s : State) : (tableReset s).err = s.err := rfl
@[simp] theorem tableReset_errCause (s : State) : (tableReset s).errCause = s.errCause := rfl
@[simp] theorem tableReset_errCode (s : State) : (tableReset s).errCode = s.errCode := rfl
@[simp] theorem tableReset_input (s : State) : (tableReset s).input = s.input := rfl
@[simp] theorem tableReset_output (s : State) : (tableReset s).output = s.output := rfl
@[simp] theorem tableReset_freeIndex (s : State) : (tableReset s).freeIndex = s.freeIndex := rfl

/-! ### `recordError` -/

@[simp] theorem recordError_params (s : State) (e : ErrCause) (c : Code) : (recordError s e c).params = s.params := rfl
@[simp] theorem recordError_entries (s : State) (e : ErrCause) (c : Code) : (recordError s e c).entries = s.entries := rfl
@[simp] theorem recordError_nextCode (s : State) (e : ErrCause) (c : Code) : (recordError s e c).nextCode = s.nextCode := rfl
@[simp] theorem recordError_curWidth (s : State) (e : ErrCause) (c : Code) : (recordError s e c).curWidth = s.curWidth := rfl
@[simp] theorem recordError_fsm (s : State) (e : ErrCause) (c : Code) : (recordError s e c).fsm = s.fsm := rfl
@[simp] theorem recordError_bufValid (s : State) (e : ErrCause) (c : Code) : (recordError s e c).bufValid = s.bufValid := rfl
@[simp] theorem recordError_bufCode (s : State) (e : ErrCause) (c : Code) : (recordError s e c).bufCode = s.bufCode := rfl
@[simp] theorem recordError_prevCode (s : State) (e : ErrCause) (c : Code) : (recordError s e c).prevCode = s.prevCode := rfl
@[simp] theorem recordError_prevExt (s : State) (e : ErrCause) (c : Code) : (recordError s e c).prevExt = s.prevExt := rfl
@[simp] theorem recordError_err (s : State) (e : ErrCause) (c : Code) : (recordError s e c).err = true := rfl
@[simp] theorem recordError_errCause (s : State) (e : ErrCause) (c : Code) : (recordError s e c).errCause = e := rfl
@[simp] theorem recordError_errCode (s : State) (e : ErrCause) (c : Code) : (recordError s e c).errCode = c := rfl
@[simp] theorem recordError_input (s : State) (e : ErrCause) (c : Code) : (recordError s e c).input = s.input := rfl
@[simp] theorem recordError_output (s : State) (e : ErrCause) (c : Code) : (recordError s e c).output = s.output := rfl
@[simp] theorem recordError_freeIndex (s : State) (e : ErrCause) (c : Code) : (recordError s e c).freeIndex = s.freeIndex := rfl

/-! ### `clearError` -/

@[simp] theorem clearError_params (s : State) : (clearError s).params = s.params := rfl
@[simp] theorem clearError_entries (s : State) : (clearError s).entries = s.entries := rfl
@[simp] theorem clearError_nextCode (s : State) : (clearError s).nextCode = s.nextCode := rfl
@[simp] theorem clearError_curWidth (s : State) : (clearError s).curWidth = s.curWidth := rfl
@[simp] theorem clearError_fsm (s : State) : (clearError s).fsm = s.fsm := rfl
@[simp] theorem clearError_bufValid (s : State) : (clearError s).bufValid = s.bufValid := rfl
@[simp] theorem clearError_bufCode (s : State) : (clearError s).bufCode = s.bufCode := rfl
@[simp] theorem clearError_prevCode (s : State) : (clearError s).prevCode = s.prevCode := rfl
@[simp] theorem clearError_prevExt (s : State) : (clearError s).prevExt = s.prevExt := rfl
@[simp] theorem clearError_err (s : State) : (clearError s).err = false := rfl
@[simp] theorem clearError_errCause (s : State) : (clearError s).errCause = .none := rfl
@[simp] theorem clearError_errCode (s : State) : (clearError s).errCode = 0#16 := rfl
@[simp] theorem clearError_input (s : State) : (clearError s).input = s.input := rfl
@[simp] theorem clearError_output (s : State) : (clearError s).output = s.output := rfl
@[simp] theorem clearError_freeIndex (s : State) : (clearError s).freeIndex = s.freeIndex := rfl

/-! ### `hardwareReset` -/

@[simp] theorem hardwareReset_params (s : State) : (hardwareReset s).params = s.params := rfl
@[simp] theorem hardwareReset_entries (s : State) : (hardwareReset s).entries = [] := rfl
@[simp] theorem hardwareReset_nextCode (s : State) : (hardwareReset s).nextCode = 256#17 := rfl
@[simp] theorem hardwareReset_curWidth (s : State) : (hardwareReset s).curWidth = 9#5 := rfl
@[simp] theorem hardwareReset_fsm (s : State) : (hardwareReset s).fsm = .idle := rfl
@[simp] theorem hardwareReset_bufValid (s : State) : (hardwareReset s).bufValid = false := rfl
@[simp] theorem hardwareReset_bufCode (s : State) : (hardwareReset s).bufCode = 0#16 := rfl
@[simp] theorem hardwareReset_prevCode (s : State) : (hardwareReset s).prevCode = 0#16 := rfl
@[simp] theorem hardwareReset_prevExt (s : State) : (hardwareReset s).prevExt = 0#32 := rfl
@[simp] theorem hardwareReset_err (s : State) : (hardwareReset s).err = false := rfl
@[simp] theorem hardwareReset_errCause (s : State) : (hardwareReset s).errCause = .none := rfl
@[simp] theorem hardwareReset_errCode (s : State) : (hardwareReset s).errCode = 0#16 := rfl
@[simp] theorem hardwareReset_input (s : State) : (hardwareReset s).input = s.input := rfl
@[simp] theorem hardwareReset_output (s : State) : (hardwareReset s).output = s.output := rfl
@[simp] theorem hardwareReset_freeIndex (s : State) : (hardwareReset s).freeIndex = s.freeIndex := rfl

/-! ### The strings read the store and `NEXT_CODE` alone -/

theorem strOf_congr {s t : State} (he : t.entries = s.entries) (hn : t.nextCode = s.nextCode) (k : Nat) :
    strOf t k = strOf s k := by
  simp [strOf, he, hn]

theorem findCode_congr {s t : State} (he : t.entries = s.entries) (hn : t.nextCode = s.nextCode) (str : List Byte) :
    findCode t str = findCode s str := by
  unfold findCode
  rw [funext (strOf_congr he hn), hn]

@[simp] theorem strOf_respond (s : State) (st : Status) (v : Value) (d : List Byte) (c : List Code) (k : Nat) :
    strOf (respond s st v d c) k = strOf s k := rfl

@[simp] theorem findCode_respond (s : State) (st : Status) (v : Value) (d : List Byte) (c : List Code) (str : List Byte) :
    findCode (respond s st v d c) str = findCode s str := rfl

end Sys2Proof.Machine
end

