-- ==== Sys2Proof/Laws/Strings.lean ====
section
/-! SUPPORT. The laws of `STR`, `FIRST` and `FIND` (R22 to R29): one lemma per case of the recursion, free of its fuel, for a
table whose prefixes are smaller than their codes (R23). -/

namespace Sys2Proof.Machine

/-- R23 for a store in which the codes below `n` are present. -/
def Linked (m : Memory) (n : Nat) : Prop :=
  ∀ k, 256 ≤ k → k < n → ∃ e, Memory.read m k = some e ∧ e.pre.toNat < k

theorem State.Inv.linked {s : State} (h : s.Inv) : Linked s.entries s.nextCode.toNat :=
  fun k h1 h2 => h.prefix_lt k h1 h2

/-- Growing the store above `n`, the present codes, or the fuel keeps every string that is defined. -/
theorem strFuel_extend {m m' : Memory} {n n' : Nat} (hm : ∀ j < n, Memory.read m' j = Memory.read m j) (hn : n ≤ n') :
    ∀ {f f' k : Nat} {x : List Byte}, f ≤ f' → strFuel m n f k = some x → strFuel m' n' f' k = some x := by
  intro f
  induction f with
  | zero => intro f' k x _ h; simp [strFuel] at h
  | succ f ih =>
    intro f' k x hf h
    obtain ⟨g, rfl⟩ : ∃ g, f' = g + 1 := ⟨f' - 1, by omega⟩
    simp only [strFuel] at h ⊢
    split at h
    · cases h
    · rename_i hk
      rw [if_neg (by omega)]
      split at h
      · rename_i h256
        rw [if_pos h256]; exact h
      · rename_i h256
        rw [if_neg h256, hm k (by omega)]
        cases hr : Memory.read m k with
        | none => rw [hr] at h; cases h
        | some e =>
          rw [hr] at h
          obtain ⟨y, hy, rfl⟩ := Option.map_eq_some_iff.mp h
          simp [ih (f' := g) (by omega) hy]

/-- In a linked store every present code has a string, given enough fuel; it is not empty. -/
theorem strFuel_defined {m : Memory} {n : Nat} (hl : Linked m n) :
    ∀ k, k < n → ∀ f, k < f → ∃ x, strFuel m n f k = some x ∧ x ≠ [] := by
  intro k
  induction k using Nat.strong_induction_on with
  | _ k ih =>
    intro hk f hf
    obtain ⟨g, rfl⟩ : ∃ g, f = g + 1 := ⟨f - 1, by omega⟩
    simp only [strFuel, if_neg (Nat.not_le.mpr hk)]
    by_cases h256 : k < 256
    · exact ⟨[BitVec.ofNat 8 k], by simp [h256]⟩
    · obtain ⟨e, he, hlt⟩ := hl k (by omega) hk
      obtain ⟨y, hy, _⟩ := ih _ hlt (by omega) g (by omega)
      exact ⟨y ++ [e.suffix], by simp [h256, he, hy], by simp⟩

/-- A code that is not present has no string (R24). -/
theorem strOf_absent {s : State} {k : Nat} (hk : ¬ s.Present k) : strOf s k = none := by
  have hk' : ¬ k < s.nextCode.toNat := hk
  unfold strOf
  generalize s.nextCode.toNat = n at hk'
  cases n with
  | zero => rfl
  | succ n => simp only [strFuel]; rw [if_pos (by omega)]

theorem present_of_strOf {s : State} {k : Nat} {x : List Byte} (h : strOf s k = some x) : s.Present k := by
  by_contra hk
  rw [strOf_absent hk] at h
  cases h

/-- The string of a seed (R22). -/
theorem strOf_seed {s : State} {k : Nat} (hk : k < 256) (hp : s.Present k) : strOf s k = some [BitVec.ofNat 8 k] := by
  unfold strOf
  have hp' : k < s.nextCode.toNat := hp
  obtain ⟨n, hn⟩ : ∃ n, s.nextCode.toNat = n + 1 := ⟨s.nextCode.toNat - 1, by omega⟩
  rw [hn]
  simp only [strFuel]
  rw [if_neg (by omega), if_pos hk]

/-- Every present code has a string, and it is not empty (R24). -/
theorem strOf_defined {s : State} (hl : Linked s.entries s.nextCode.toNat) {k : Nat} (hk : s.Present k) :
    ∃ x, strOf s k = some x ∧ x ≠ [] :=
  strFuel_defined hl k hk _ hk

/-- The string of a learned code: its prefix's string and its suffix (R24). -/
theorem strOf_learned {s : State} (hl : Linked s.entries s.nextCode.toNat) {k : Nat} (h256 : 256 ≤ k) (hk : s.Present k) :
    ∃ e x, Memory.read s.entries k = some e ∧ e.pre.toNat < k ∧ strOf s e.pre.toNat = some x ∧
      strOf s k = some (x ++ [e.suffix]) := by
  have hk' : k < s.nextCode.toNat := hk
  obtain ⟨e, he, hlt⟩ := hl k h256 hk
  obtain ⟨n, hn⟩ : ∃ n, s.nextCode.toNat = n + 1 := ⟨s.nextCode.toNat - 1, by omega⟩
  obtain ⟨x, hx, _⟩ := strFuel_defined hl e.pre.toNat (by omega) n (by omega)
  refine ⟨e, x, he, hlt, strFuel_extend (fun _ _ => rfl) le_rfl (by omega) hx, ?_⟩
  unfold strOf
  rw [hn] at hx ⊢
  simp only [strFuel]
  rw [if_neg (by omega), if_neg (by simp; omega)]
  simp [he, hx]

/-- The length of a learned string: `2 <= len(STR(k)) <= k - 254` (R24). -/
theorem strOf_length {s : State} (hl : Linked s.entries s.nextCode.toNat) :
    ∀ {k : Nat} {x : List Byte}, strOf s k = some x → (k < 256 → x.length = 1) ∧ (256 ≤ k → 2 ≤ x.length ∧ x.length ≤ k - 254) := by
  intro k
  induction k using Nat.strong_induction_on with
  | _ k ih =>
    intro x hx
    have hp := present_of_strOf hx
    refine ⟨fun h => ?_, fun h => ?_⟩
    · rw [strOf_seed h hp] at hx; cases hx; rfl
    · obtain ⟨e, y, _, hlt, hy, hk⟩ := strOf_learned hl h hp
      rw [hk] at hx; cases hx
      obtain ⟨h1, h2⟩ := ih _ hlt hy
      simp only [List.length_append, List.length_singleton]
      by_cases h' : e.pre.toNat < 256
      · have := h1 h'; omega
      · have := h2 (by omega); omega

/-- `FIND` answers the least present code that holds the string (R29). -/
theorem findCode_eq_some {s : State} {str : List Byte} {k : Nat} :
    findCode s str = some k ↔ s.Present k ∧ strOf s k = some str ∧ ∀ j < k, strOf s j ≠ some str := by
  unfold findCode
  rw [List.find?_range_eq_some]
  simp only [decide_eq_true_eq, List.mem_range, Bool.not_eq_true', decide_eq_false_iff_not, State.Present]
  tauto

/-- `FIND` answers none exactly when no present code holds the string (R29). -/
theorem findCode_eq_none {s : State} {str : List Byte} : findCode s str = none ↔ ∀ k, strOf s k ≠ some str := by
  unfold findCode
  rw [List.find?_eq_none]
  simp only [List.mem_range, decide_eq_true_eq]
  refine ⟨fun h k hk => h k (present_of_strOf hk) hk, fun h k _ => h k⟩

end Sys2Proof.Machine
end

