-- ==== Sys2Proof/Laws/Ops.lean ====
section
/-! SUPPORT. For each shared operation, once, everything it can do: insertion, responses, rejection, the failure entry, the
state guard, the continuation with a string. -/

namespace Sys2Proof.Machine

/-! ### Insertion (R106 to R108) -/

/-- `WIDTH_TRACK` writes `CUR_WIDTH` alone. -/
theorem widthTrack_eq (s : State) : widthTrack s = { s with curWidth := (widthTrack s).curWidth } := by
  unfold widthTrack
  split <;> rfl

/-- On a frozen table an insertion changes nothing (R107). -/
theorem insertEntry_frozen {s : State} (h : s.params.capacity.toNat ≤ s.nextCode.toNat) (p : Code) (b : Byte) :
    insertEntry s p b = (s, none) := by
  simp [insertEntry, Nat.not_lt.mpr h]

/-- Below capacity an insertion writes the slot `NEXT_CODE`, counts it, tracks the width, and writes nothing else (R106). -/
theorem insertEntry_below {s : State} (h : s.nextCode.toNat < s.params.capacity.toNat) (p : Code) (b : Byte) :
    insertEntry s p b =
      ({ s with
          entries  := Memory.write s.entries s.nextCode.toNat { pre := p, suffix := b }
          nextCode := s.nextCode + 1
          curWidth := (insertEntry s p b).1.curWidth },
        some s.nextCode) := by
  simp only [insertEntry, h, if_true]
  rw [widthTrack_eq]

/-- `NEXT_CODE` does not wrap: it stays within 17 bits (R26). -/
theorem nextCode_succ_toNat {s : State} (h : s.nextCode.toNat < s.params.capacity.toNat) :
    (s.nextCode + 1).toNat = s.nextCode.toNat + 1 := by
  have := s.params.capacity.isLt
  have h1 : (1 : BitVec 17).toNat = 1 := rfl
  rw [BitVec.toNat_add, h1]
  omega

theorem insertEntry_entries {s : State} (h : s.nextCode.toNat < s.params.capacity.toNat) (p : Code) (b : Byte) :
    (insertEntry s p b).1.entries = Memory.write s.entries s.nextCode.toNat { pre := p, suffix := b } := by
  rw [insertEntry_below h]

theorem insertEntry_nextCode {s : State} (h : s.nextCode.toNat < s.params.capacity.toNat) (p : Code) (b : Byte) :
    (insertEntry s p b).1.nextCode = s.nextCode + 1 := by
  rw [insertEntry_below h]

theorem insertEntry_nextCode_toNat {s : State} (h : s.nextCode.toNat < s.params.capacity.toNat) (p : Code) (b : Byte) :
    (insertEntry s p b).1.nextCode.toNat = s.nextCode.toNat + 1 := by
  rw [insertEntry_nextCode h, nextCode_succ_toNat h]

/-- The width after a successful insertion (R108). -/
theorem insertEntry_curWidth {s : State} (h : s.nextCode.toNat < s.params.capacity.toNat) (p : Code) (b : Byte) :
    (insertEntry s p b).1.curWidth =
      if 2 ^ s.curWidth.toNat ≤ (s.nextCode + 1).toNat ∧ s.curWidth.toNat < s.params.maxWidth.toNat then s.curWidth + 1
      else s.curWidth := by
  simp only [insertEntry, h, if_true, widthTrack]
  split <;> rfl

@[simp] theorem insertEntry_params (s : State) (p : Code) (b : Byte) : (insertEntry s p b).1.params = s.params := by
  unfold insertEntry widthTrack; split <;> (try split) <;> rfl

@[simp] theorem insertEntry_fsm (s : State) (p : Code) (b : Byte) : (insertEntry s p b).1.fsm = s.fsm := by
  unfold insertEntry widthTrack; split <;> (try split) <;> rfl

@[simp] theorem insertEntry_bufValid (s : State) (p : Code) (b : Byte) : (insertEntry s p b).1.bufValid = s.bufValid := by
  unfold insertEntry widthTrack; split <;> (try split) <;> rfl

@[simp] theorem insertEntry_bufCode (s : State) (p : Code) (b : Byte) : (insertEntry s p b).1.bufCode = s.bufCode := by
  unfold insertEntry widthTrack; split <;> (try split) <;> rfl

@[simp] theorem insertEntry_prevCode (s : State) (p : Code) (b : Byte) : (insertEntry s p b).1.prevCode = s.prevCode := by
  unfold insertEntry widthTrack; split <;> (try split) <;> rfl

@[simp] theorem insertEntry_prevExt (s : State) (p : Code) (b : Byte) : (insertEntry s p b).1.prevExt = s.prevExt := by
  unfold insertEntry widthTrack; split <;> (try split) <;> rfl

@[simp] theorem insertEntry_err (s : State) (p : Code) (b : Byte) : (insertEntry s p b).1.err = s.err := by
  unfold insertEntry widthTrack; split <;> (try split) <;> rfl

@[simp] theorem insertEntry_errCause (s : State) (p : Code) (b : Byte) : (insertEntry s p b).1.errCause = s.errCause := by
  unfold insertEntry widthTrack; split <;> (try split) <;> rfl

@[simp] theorem insertEntry_errCode (s : State) (p : Code) (b : Byte) : (insertEntry s p b).1.errCode = s.errCode := by
  unfold insertEntry widthTrack; split <;> (try split) <;> rfl

@[simp] theorem insertEntry_input (s : State) (p : Code) (b : Byte) : (insertEntry s p b).1.input = s.input := by
  unfold insertEntry widthTrack; split <;> (try split) <;> rfl

@[simp] theorem insertEntry_output (s : State) (p : Code) (b : Byte) : (insertEntry s p b).1.output = s.output := by
  unfold insertEntry widthTrack; split <;> (try split) <;> rfl

@[simp] theorem insertEntry_freeIndex (s : State) (p : Code) (b : Byte) : (insertEntry s p b).1.freeIndex = s.freeIndex := by
  unfold insertEntry widthTrack; split <;> (try split) <;> rfl

/-- An insertion whose prefix is present keeps R23. -/
theorem insertEntry_linked {s : State} (hl : Linked s.entries s.nextCode.toNat)
    (h : s.nextCode.toNat < s.params.capacity.toNat) {p : Code} (hp : s.Present p.toNat) (b : Byte) :
    Linked (insertEntry s p b).1.entries (insertEntry s p b).1.nextCode.toNat := by
  rw [insertEntry_entries h, insertEntry_nextCode_toNat h]
  intro k h1 h2
  by_cases hk : k = s.nextCode.toNat
  · subst hk
    exact ⟨_, Memory.read_write_same _ _ _, hp⟩
  · obtain ⟨e, he, hlt⟩ := hl k h1 (by omega)
    exact ⟨e, (Memory.read_write_other _ _ hk).trans he, hlt⟩

/-- An insertion keeps the string of every code that was present. -/
theorem strOf_insertEntry_old {s : State} (hl : Linked s.entries s.nextCode.toNat) (p : Code) (b : Byte) {k : Nat}
    (hk : s.Present k) : strOf (insertEntry s p b).1 k = strOf s k := by
  by_cases h : s.nextCode.toNat < s.params.capacity.toNat
  · obtain ⟨x, hx, _⟩ := strOf_defined hl hk
    rw [hx]
    unfold strOf
    rw [insertEntry_entries h, insertEntry_nextCode_toNat h]
    exact strFuel_extend (fun j hj => Memory.read_write_other _ _ (Nat.ne_of_lt hj)) (by omega) (by omega) hx
  · rw [insertEntry_frozen (Nat.not_lt.mp h)]

/-- The string of the code an insertion assigns: the prefix's string and the byte (R106). -/
theorem strOf_insertEntry_new {s : State} (hl : Linked s.entries s.nextCode.toNat) (h256 : 256 ≤ s.nextCode.toNat)
    (h : s.nextCode.toNat < s.params.capacity.toNat) {p : Code} (hp : s.Present p.toNat) (b : Byte) {x : List Byte}
    (hx : strOf s p.toNat = some x) : strOf (insertEntry s p b).1 s.nextCode.toNat = some (x ++ [b]) := by
  have hl' := insertEntry_linked hl h hp b
  have hpres : (insertEntry s p b).1.Present s.nextCode.toNat := by
    show _ < (insertEntry s p b).1.nextCode.toNat
    rw [insertEntry_nextCode_toNat h]; omega
  obtain ⟨e, y, he, _, hy, hn⟩ := strOf_learned hl' h256 hpres
  have hread : Memory.read (insertEntry s p b).1.entries s.nextCode.toNat = some { pre := p, suffix := b } := by
    rw [insertEntry_entries h]; exact Memory.read_write_same _ _ _
  rw [hread] at he
  cases he
  rw [strOf_insertEntry_old hl p b hp, hx] at hy
  cases hy
  exact hn

/-! ### Responses, rejection, the failure entry (R80, R203, R206) -/

@[simp] theorem finish_eq_next {s t : State} {st : Status} {v : Value} {d : List Byte} {c : List Code} :
    finish s st v d c = .next t ↔ t = respond s st v d c := by
  simp [finish, eq_comm]

@[simp] theorem cmdError_eq_next {s t : State} {st : Status} : cmdError s st = .next t ↔ t = respond s st 0 [] [] := by
  simp [cmdError]

@[simp] theorem raiseInvalidStream_eq_next {s t : State} {cause : ErrCause} {code : Code} :
    raiseInvalidStream s cause code = .next t ↔
      t = respond { recordError s cause code with fsm := .decFailed } .invalidStream (invalidStreamValue cause code) [] [] := by
  simp [raiseInvalidStream]

/-- A guarded command runs its body where the matrix of R207 allows it, and answers `STATE_ERROR` elsewhere. -/
theorem guarded_eq_next {g : Guarded} {s t : State} {body : Result} :
    guarded g s body = .next t ↔
      (legalIn g s.fsm = true ∧ body = .next t) ∨ (legalIn g s.fsm = false ∧ t = respond s .stateError 0 [] []) := by
  unfold guarded
  cases legalIn g s.fsm <;> simp

/-- A command that needs a string goes on exactly where the string is defined. -/
theorem withString_eq_next {k : Nat} {str : Option (List Byte)} {body : List Byte → Result} {t : State} :
    withString k str body = .next t ↔ ∃ x, str = some x ∧ body x = .next t := by
  cases str <;> simp [withString]

/-- A present buffer has a string; an empty buffer has the empty one (R32). -/
theorem bufStr_defined {s : State} (hl : Linked s.entries s.nextCode.toNat)
    (hb : s.bufValid = true → s.Present s.bufCode.toNat) : ∃ x, bufStr s = some x ∧ (s.bufValid = true → x ≠ []) := by
  unfold bufStr
  cases hv : s.bufValid with
  | false => exact ⟨[], by simp, by simp⟩
  | true =>
    obtain ⟨x, hx, hne⟩ := strOf_defined hl (hb hv)
    exact ⟨x, by simpa using hx, fun _ => hne⟩

/-- A present code has a first byte. -/
theorem firstOf_defined {s : State} (hl : Linked s.entries s.nextCode.toNat) {k : Nat} (hk : s.Present k) :
    ∃ x y, strOf s k = some (x :: y) ∧ firstOf s k = some x := by
  obtain ⟨z, hz, hne⟩ := strOf_defined hl hk
  obtain ⟨x, y, rfl⟩ := List.exists_cons_of_ne_nil hne
  exact ⟨x, y, hz, by simp [firstOf, hz]⟩

/-- The previous entry and the repaired entry of a present `PREV_CODE` (R33, R153). -/
theorem repairEntry_defined {s : State} (hl : Linked s.entries s.nextCode.toNat) (hk : s.Present s.prevCode.toNat) :
    ∃ x y, strOf s s.prevCode.toNat = some (x :: y) ∧ firstOf s s.prevCode.toNat = some x ∧
      prevStr s = some (x :: y ++ List.replicate s.prevExt.toNat x) ∧
      repairEntry s = some (x :: y ++ List.replicate s.prevExt.toNat x ++ [x]) := by
  obtain ⟨x, y, hxy, hf⟩ := firstOf_defined hl hk
  exact ⟨x, y, hxy, hf, by simp [prevStr, hxy], by simp [repairEntry, prevStr, hxy, hf]⟩

end Sys2Proof.Machine
end

