-- ==== Sys2Proof/Laws/PerInstr.lean ====
section
/-! SUPPORT. Facts about every command as syntax, one lemma per constructor: the opcode of R74 stands in its word, and the
reserved field is 0 (R73). -/

namespace Sys2Proof.Laws.EncodedFields

/-- The opcode map (R74). -/
def opcode : Instr → Nat
  | .tblReset => 0x1
  | .tblLookup _ => 0x2
  | .tblLookupPrefix _ _ => 0x2
  | .tblLearn _ _ => 0x3
  | .tblResolve _ => 0x4
  | .encStart => 0x5
  | .encByte _ => 0x6
  | .encFlush => 0x7
  | .decStart => 0x8
  | .decCode _ => 0x9
  | .decEnd => 0xA
  | .regRead _ => 0xB

/-- The word of a command holds its opcode in bits 31..28 and 0 in `RSV`. -/
def Statement (i : Instr) : Prop :=
  (fieldsOf (encode i)).op.toNat = opcode i ∧ (fieldsOf (encode i)).rsv = 0

theorem tblReset : Statement .tblReset := by simp [Statement, encode, fieldsOf_packFields, encodeFields, opcode]

theorem tblLookup (b : Byte) : Statement (.tblLookup b) := by
  simp [Statement, encode, fieldsOf_packFields, encodeFields, opcode]

theorem tblLookupPrefix (p : Code) (b : Byte) : Statement (.tblLookupPrefix p b) := by
  simp [Statement, encode, fieldsOf_packFields, encodeFields, opcode]

theorem tblLearn (p : Code) (b : Byte) : Statement (.tblLearn p b) := by
  simp [Statement, encode, fieldsOf_packFields, encodeFields, opcode]

theorem tblResolve (c : Code) : Statement (.tblResolve c) := by
  simp [Statement, encode, fieldsOf_packFields, encodeFields, opcode]

theorem encStart : Statement .encStart := by simp [Statement, encode, fieldsOf_packFields, encodeFields, opcode]

theorem encByte (b : Byte) : Statement (.encByte b) := by
  simp [Statement, encode, fieldsOf_packFields, encodeFields, opcode]

theorem encFlush : Statement .encFlush := by simp [Statement, encode, fieldsOf_packFields, encodeFields, opcode]

theorem decStart : Statement .decStart := by simp [Statement, encode, fieldsOf_packFields, encodeFields, opcode]

theorem decCode (c : Code) : Statement (.decCode c) := by
  simp [Statement, encode, fieldsOf_packFields, encodeFields, opcode]

theorem decEnd : Statement .decEnd := by simp [Statement, encode, fieldsOf_packFields, encodeFields, opcode]

theorem regRead (r : Byte) : Statement (.regRead r) := by
  simp [Statement, encode, fieldsOf_packFields, encodeFields, opcode]

end Sys2Proof.Laws.EncodedFields
end

