-- ==== Sys2Proof/Laws/Run.lean ====
section
/-! SUPPORT. What a transcript, the output of a run and its observation are, exchange by exchange. -/

namespace Sys2Proof.Machine

/-- The exchange of a command word with its one response. -/
abbrev commandExchange (w : CommandWord) (r : Response) : Exchange := { event := .command w, responses := [r] }

theorem exchangeOf_command {s t : State} {w : CommandWord} {rest : List HostEvent} {r : Response}
    (hi : s.input = .command w :: rest) (ho : t.output = s.output ++ [r]) : exchangeOf s t = [commandExchange w r] := by
  simp [exchangeOf, hi, ho]

@[simp] theorem transcript_zero (s : State) : transcript 0 s = [] := rfl

theorem transcript_next {s t : State} (h : step s = .next t) (n : Nat) :
    transcript (n + 1) s = exchangeOf s t ++ transcript n t := by
  simp [transcript, h]

@[simp] theorem answered_command {w : CommandWord} {i : Instr} (r : Response) (h : decode w = .ok i) :
    (commandExchange w r).answered = some (i, r) := by
  simp [Exchange.answered, h, Except.toOption]

@[simp] theorem answered_illegal {w : CommandWord} {e : Reject} (r : Response) (h : decode w = .error e) :
    (commandExchange w r).answered = none := by
  simp [Exchange.answered, h, Except.toOption]

/-- The data of a `DEC_CODE` response is output. -/
theorem bytes_decCode {x : Exchange} {c : Code} {r : Response} (h : x.answered = some (.decCode c, r)) : x.bytes = r.data := by
  simp [Exchange.bytes, h]

/-- The data of any other response is not. -/
theorem bytes_other {x : Exchange} (h : ∀ c r, x.answered ≠ some (.decCode c, r)) : x.bytes = [] := by
  unfold Exchange.bytes
  split
  · exact absurd ‹_› (h _ _)
  · rfl

@[simp] theorem runBytes_nil : runBytes [] = [] := rfl

@[simp] theorem runBytes_cons (x : Exchange) (xs : List Exchange) : runBytes (x :: xs) = x.bytes ++ runBytes xs := by
  simp [runBytes]

@[simp] theorem runCodes_nil : runCodes [] = [] := rfl

@[simp] theorem runCodes_append (rs qs : List Response) : runCodes (rs ++ qs) = runCodes rs ++ runCodes qs := by
  simp [runCodes]

/-- A run ends at the response to its last command. -/
theorem runUntil_end {last : Instr} {x : Exchange} {r : Response} (h : x.answered = some (last, r)) (xs : List Exchange) :
    runUntil last (x :: xs) = some ([x], r.status) := by
  simp [runUntil, Exchange.endsWith, h]

/-- Every exchange that neither ends nor abandons a run belongs to it. -/
theorem runUntil_skip {last : Instr} {x : Exchange} (he : x.endsWith last = none) (ha : x.abandons = false)
    (xs : List Exchange) : runUntil last (x :: xs) = (runUntil last xs).map fun run => (x :: run.1, run.2) := by
  simp [runUntil, he, ha]

/-- An abandoned run has no defined output. -/
theorem runUntil_abandoned {last : Instr} {x : Exchange} (he : x.endsWith last = none) (ha : x.abandons = true)
    (xs : List Exchange) : runUntil last (x :: xs) = none := by
  simp [runUntil, he, ha]

end Sys2Proof.Machine
end

