-- ==== Sys2Proof/Machine/Assembler.lean ====
section
/-! DEFINITION. The assembler notation (R82, R83): one line of text to the commands it stands for. White space, and the
rejection of a line that fits no form, are the model's (log entry 12). -/

namespace Sys2Proof.Machine

/-- What a line is made of. -/
inductive Token where
  /-- A mnemonic, a number or a register name. -/
  | word (cs : List Char)
  | comma
  /-- A character literal `'A'`. -/
  | chr (c : Char)
  /-- A string literal `"AAAA"` (R83). -/
  | str (cs : List Char)
  deriving DecidableEq, Repr

/-- End the word read so far (its characters last first), if there is one. -/
def endWord (acc : List Char) (rest : List Token) : List Token :=
  if acc = [] then rest else .word acc.reverse :: rest

/-- The tokens of a line. `quoted` holds the characters of a string literal being read, `acc` those of a word, both last
first. A comment starts with `;` and runs to the end. -/
def tokens (quoted : Option (List Char)) (acc : List Char) : List Char → Option (List Token)
  | [] => if quoted = none then some (endWord acc []) else none
  | c :: cs =>
    match quoted with
    | some q =>
      if c = '"' then (tokens none [] cs).map (.str q.reverse :: ·) else tokens (some (c :: q)) acc cs
    | none =>
      if c = ';' then some (endWord acc [])
      else if c = '"' then (tokens (some []) [] cs).map (endWord acc)
      else if c = ',' then (tokens none [] cs).map fun ts => endWord acc (.comma :: ts)
      else if c = ' ' ∨ c = '\t' then (tokens none [] cs).map (endWord acc)
      else if c = '\'' then
        match cs with
        | x :: '\'' :: ds => (tokens none [] ds).map fun ts => endWord acc (.chr x :: ts)
        | _               => none
      else tokens none (c :: acc) cs

/-- The value of a digit in a base up to 16. -/
def digitValue (base : Nat) (c : Char) : Option Nat :=
  let d := if '0' ≤ c ∧ c ≤ '9' then c.toNat - '0'.toNat
           else if 'a' ≤ c ∧ c ≤ 'f' then c.toNat - 'a'.toNat + 10
           else if 'A' ≤ c ∧ c ≤ 'F' then c.toNat - 'A'.toNat + 10
           else 16
  if d < base then some d else none

/-- A numeral in a base, its most significant digit first; `v` is the value read so far. -/
def numeral (base v : Nat) : List Char → Option Nat
  | []      => some v
  | c :: cs => (digitValue base c).bind fun d => numeral base (v * base + d) cs

/-- A number, in decimal or `0x` hexadecimal. -/
def number (cs : List Char) : Option Nat :=
  match cs with
  | []                   => none
  | '0' :: 'x' :: d :: ds => numeral 16 0 (d :: ds)
  | d :: ds              => numeral 10 0 (d :: ds)

/-- A byte operand: a number `0..255`, or a character literal, which means its ASCII code. -/
def byteOperand : Token → Option Byte
  | .word cs => (number cs).bind fun n => if n ≤ 255 then some (BitVec.ofNat 8 n) else none
  | .chr c   => if c.toNat ≤ 127 then some (BitVec.ofNat 8 c.toNat) else none
  | _        => none

/-- A code operand: a number `0..65535`. -/
def codeOperand : Token → Option Code
  | .word cs => (number cs).bind fun n => if n ≤ 65535 then some (BitVec.ofNat 16 n) else none
  | _        => none

/-- The register names, by index (R181). -/
def registerNames : List String :=
  ["STATUS", "NEXT_CODE", "CUR_WIDTH", "CAPACITY", "MAX_WIDTH", "BUF_CODE", "PREV_CODE", "PREV_EXT", "ERR_CAUSE", "ERR_CODE"]

/-- A register operand: an index `0..9` or a register name. -/
def registerOperand : Token → Option Byte
  | .word cs =>
    match number cs with
    | some n => if n ≤ 9 then some (BitVec.ofNat 8 n) else none
    | none   => (registerNames.findIdx? (fun x => decide (x.toList = cs))).map (BitVec.ofNat 8)
  | _ => none

/-- Operands separated by commas. -/
def operands : List Token → Option (List Token)
  | []               => some []
  | [t]              => if t = .comma then none else some [t]
  | t :: .comma :: u :: ts => if t = .comma then none else (operands (u :: ts)).map (t :: ·)
  | _                => none

/-- The bytes of the operands of `COMPRESS`: a string literal stands for its ASCII bytes (R83). -/
def byteList : List Token → Option (List Byte)
  | []           => some []
  | .str cs :: ts =>
    if cs.all (fun c => decide (c.toNat ≤ 127)) then
      (byteList ts).map (cs.map (fun c => BitVec.ofNat 8 c.toNat) ++ ·)
    else none
  | t :: ts      => (byteOperand t).bind fun b => (byteList ts).map (b :: ·)

/-- The commands of a mnemonic and its operands (R82, R83). -/
def assembleOperands (mnemonic : List Char) (os : List Token) : Option (List Instr) :=
  let is (m : String) : Bool := decide (m.toList = mnemonic)
  let bare (i : Instr) : Option (List Instr) := if os = [] then some [i] else none
  if is "TBL_RESET" then bare .tblReset
  else if is "TBL_LOOKUP" then
    match os with
    | [b]    => (byteOperand b).map fun b => [.tblLookup b]
    | [p, b] => (codeOperand p).bind fun p => (byteOperand b).map fun b => [.tblLookupPrefix p b]
    | _      => none
  else if is "TBL_LEARN" then
    match os with
    | [p, b] => (codeOperand p).bind fun p => (byteOperand b).map fun b => [.tblLearn p b]
    | _      => none
  else if is "TBL_RESOLVE" then
    match os with
    | [c] => (codeOperand c).map fun c => [.tblResolve c]
    | _   => none
  else if is "ENC_START" then bare .encStart
  else if is "ENC_BYTE" then
    match os with
    | [b] => (byteOperand b).map fun b => [.encByte b]
    | _   => none
  else if is "ENC_FLUSH" then bare .encFlush
  else if is "DEC_START" then bare .decStart
  else if is "DEC_CODE" then
    match os with
    | [c] => (codeOperand c).map fun c => [.decCode c]
    | _   => none
  else if is "DEC_END" then bare .decEnd
  else if is "REG_READ" then
    match os with
    | [r] => (registerOperand r).map fun r => [.regRead r]
    | _   => none
  else if is "COMPRESS" then (byteList os).map compressCommands
  else if is "DECOMPRESS" then (os.mapM codeOperand).map decompressCommands
  else none

/-- The commands of one line of text; none for a line that fits no form, and no command for a line with nothing but white
space and a comment. -/
def assemble (line : List Char) : Option (List Instr) :=
  match tokens none [] line with
  | some []               => some []
  | some (.word m :: ts) => (operands ts).bind (assembleOperands m)
  | _                     => none

end Sys2Proof.Machine
end

