-- ==== Sys2Proof/Tests/Slice0.lean ====
section
/-! SUPPORT. The model's own tests. Every expected result is one of 95_test_vectors.md, or a word written out by hand from R71,
R74 and R84; each test says which. The last part gives, for every statement with hypotheses, a state and operands that meet
them. -/

namespace Sys2Proof.Machine.Tests

/-! ### States to test on -/

/-- An instance of a given capacity with the seeds alone, in a given FSM state. -/
def seeded (capacity : BitVec 17) (fsm : FsmState) : State :=
  { State.reset with params := { capacity := capacity, maxWidth := 12#5 }, fsm := fsm }

/-- An instance that has learned 256 = "AB" (T1 row 2, T3 row 2 of L2.2). -/
def withAB (capacity : BitVec 17) (fsm : FsmState) : State :=
  { seeded capacity fsm with entries := [(256, { pre := 65#16, suffix := 66#8 })], nextCode := 257#17 }

/-- An encode run whose buffer is "A". -/
def encA : State := { seeded 4096#17 .encRun with bufValid := true, bufCode := 65#16 }

/-- A decode run whose previous entry is "A". -/
def decA (capacity : BitVec 17) : State := { seeded capacity .decRun with prevCode := 65#16 }

/-- A decode run on a frozen table with the repair counter full (L2.7 needs more repairs than a test can take). -/
def decFull : State := { decA 256#17 with prevExt := 0xFFFFFFFF#32 }

/-- A failed decode run: cause 2, code 300 (T5 row 9 of L2.2). -/
def failed300 : State := { seeded 4096#17 .decFailed with err := true, errCause := .firstNotSeed, errCode := 300#16 }

/-- The last response of an outcome. -/
def lastOf : Result → Option Response
  | .next t => t.output.getLast?
  | _       => none

/-- A view of the next state of an outcome. -/
def seen {α : Type} (f : State → α) : Result → Option α
  | .next t => some (f t)
  | _       => none

/-- Whether an outcome is a refusal. -/
def isRefused : Result → Bool
  | .refused _ => true
  | _          => false

/-- A response with no codes. -/
def reply (status : Status) (value : Value) (data : List Byte) : Option Response :=
  some { status := status, value := value, data := data, codes := [] }

/-- A decoder's answer as an option, so that it can be compared. -/
def accepted (w : CommandWord) : Option Instr := (decode w).toOption

/-! ### Well-formedness -/

/-- R75, R181: indices 10..255 are reserved. -/
theorem test_wellformed_refuses_reserved_register :
    (Instr.regRead 10#8).WellFormed = false ∧ (Instr.regRead 255#8).WellFormed = false ∧
    (Instr.regRead 9#8).WellFormed = true := by decide

/-- R10: parameters just outside their bounds are not legal, those on them are. -/
theorem test_parameter_bounds :
    ¬ (Params.mk 255#17 12#5).Legal ∧ ¬ (Params.mk 65537#17 12#5).Legal ∧ ¬ (Params.mk 4096#17 8#5).Legal ∧
    ¬ (Params.mk 4096#17 17#5).Legal ∧ (Params.mk 256#17 9#5).Legal ∧ (Params.mk 65536#17 16#5).Legal := by decide

/-- R10: an instance with another parameter value is refused. -/
theorem test_step_refuses_illegal_parameters : isRefused (step (seeded 255#17 .idle)) = true := by decide

/-! ### Decoding: words written out field by field, `OP`, `RSV`, `P`, `CODE16`, `BYTE8` (R71, R74) -/

theorem test_decode_tblReset :
    accepted (0b0001#4 ++ 0b000#3 ++ 0b0#1 ++ 0b0000000000000000#16 ++ 0b00000000#8) = some .tblReset := by decide

theorem test_decode_tblLookup :
    accepted (0b0010#4 ++ 0b000#3 ++ 0b0#1 ++ 0b0000000000000000#16 ++ 0b01000001#8) = some (.tblLookup 65#8) := by decide

/-- The third row of L2.1's assembly table. -/
theorem test_decode_tblLookupPrefix :
    accepted (0b0010#4 ++ 0b000#3 ++ 0b1#1 ++ 0b0000111111111111#16 ++ 0b11111111#8) =
      some (.tblLookupPrefix 0x0FFF#16 0xFF#8) := by decide

theorem test_decode_tblLearn :
    accepted (0b0011#4 ++ 0b000#3 ++ 0b1#1 ++ 0b0000111111111111#16 ++ 0b00000000#8) =
      some (.tblLearn 4095#16 0#8) := by decide

theorem test_decode_tblResolve :
    accepted (0b0100#4 ++ 0b000#3 ++ 0b0#1 ++ 0b1111111111111111#16 ++ 0b00000000#8) =
      some (.tblResolve 65535#16) := by decide

theorem test_decode_encoder_family :
    accepted (0b0101#4 ++ 0b000#3 ++ 0b0#1 ++ 0b0000000000000000#16 ++ 0b00000000#8) = some .encStart ∧
    accepted (0b0110#4 ++ 0b000#3 ++ 0b0#1 ++ 0b0000000000000000#16 ++ 0b11111111#8) = some (.encByte 255#8) ∧
    accepted (0b0111#4 ++ 0b000#3 ++ 0b0#1 ++ 0b0000000000000000#16 ++ 0b00000000#8) = some .encFlush := by decide

theorem test_decode_decoder_family :
    accepted (0b1000#4 ++ 0b000#3 ++ 0b0#1 ++ 0b0000000000000000#16 ++ 0b00000000#8) = some .decStart ∧
    accepted (0b1001#4 ++ 0b000#3 ++ 0b0#1 ++ 0b0000000100000010#16 ++ 0b00000000#8) = some (.decCode 258#16) ∧
    accepted (0b1010#4 ++ 0b000#3 ++ 0b0#1 ++ 0b0000000000000000#16 ++ 0b00000000#8) = some .decEnd := by decide

theorem test_decode_regRead :
    accepted (0b1011#4 ++ 0b000#3 ++ 0b0#1 ++ 0b0000000000000000#16 ++ 0b00001001#8) = some (.regRead 9#8) := by decide

/-- The `ILLEGAL_COMMAND` rows of L2.1: reserved opcodes, then one row or more per opcode. -/
theorem test_decode_rejects_illegal_words :
    [0x00000000#32, 0xC0000000#32, 0xD0000000#32, 0xE0000000#32, 0xFFFFFFFF#32, 0x10000001#32, 0x11000000#32,
        0x10000100#32, 0x12000000#32, 0x2E000041#32, 0x20000141#32, 0x30000041#32, 0x41000000#32, 0x40000001#32,
        0x50000001#32, 0x60000141#32, 0x61000041#32, 0x90004101#32, 0x91004100#32, 0xA0000100#32, 0xB000000A#32,
        0xB00000FF#32, 0xB0000100#32, 0xB1000000#32].all
      (fun w => (accepted w).isNone) = true := by decide

/-- R209: the opcode is checked before the fields; each rejection has its name. -/
theorem test_decode_rejects_by_name :
    decodeFields { op := 0xC#4, rsv := 1, p := 0, code := 0, byte := 0 } = .error .reservedOpcode ∧
    decodeFields { op := 0x1#4, rsv := 1, p := 1, code := 0, byte := 0 } = .error .reservedBits ∧
    decodeFields { op := 0x3#4, rsv := 0, p := 0, code := 0, byte := 0 } = .error .learnWithoutPrefix ∧
    decodeFields { op := 0xB#4, rsv := 0, p := 0, code := 0, byte := 10 } = .error .reservedRegister ∧
    decodeFields { op := 0x9#4, rsv := 0, p := 0, code := 0, byte := 1 } = .error .unusedField := ⟨rfl, rfl, rfl, rfl, rfl⟩

/-- L2.1's assembly table, by the encoder. -/
theorem test_encode_assembly_table :
    encode (.tblLookup 0x41#8) = 0x20000041#32 ∧ encode (.tblLookupPrefix 256#16 0x41#8) = 0x21010041#32 ∧
    encode (.tblLookupPrefix 0xFFF#16 0xFF#8) = 0x210FFFFF#32 ∧ encode (.tblLearn 4095#16 0#8) = 0x310FFF00#32 ∧
    encode (.tblResolve 65535#16) = 0x40FFFF00#32 ∧ encode (.encByte 0xFF#8) = 0x600000FF#32 ∧
    encode (.decCode 258#16) = 0x90010200#32 ∧ encode (.regRead 9#8) = 0xB0000009#32 := by decide

/-- A word of the opcode table is decoded, and one that is issued runs as the next step (R84). -/
theorem test_table_word_decodes_and_runs :
    decodeTableWord 32 0x50000000 = some .encStart ∧ decodeTableWord 32 0xC0000000 = none ∧
    seen (·.fsm) (step (State.reset.withFetchWord 32 0x50000000)) = some .encRun := by decide

/-! ### Assembler notation (R82, R83): L2.1's assembly table, comments, literals and the two pseudo-instructions -/

theorem test_assemble_lookup :
    assemble "TBL_LOOKUP 'A'".toList = some [.tblLookup 65#8] ∧
    assemble "TBL_LOOKUP 0xFFF, 0xFF ; P=1".toList = some [.tblLookupPrefix 0xFFF#16 0xFF#8] := by decide +kernel

theorem test_assemble_register_name :
    assemble "REG_READ ERR_CODE".toList = some [.regRead 9#8] ∧ assemble "REG_READ 10".toList = none := by decide +kernel

theorem test_assemble_pseudo :
    assemble "COMPRESS \"AA\"".toList = some [.encStart, .encByte 65#8, .encByte 65#8, .encFlush] ∧
    assemble "DECOMPRESS 65, 256".toList = some [.decStart, .decCode 65#16, .decCode 256#16, .decEnd] ∧
    assemble "DECOMPRESS".toList = some [.decStart, .decEnd] := by decide +kernel

/-! ### The wire format and the composites -/

/-- L1.3: the wire bytes of `[65, 256, 65]`; R56: an odd number of bytes is no code stream. -/
theorem test_wire_bytes :
    serialise [65#16, 256#16, 65#16] = [0x00#8, 0x41#8, 0x01#8, 0x00#8, 0x00#8, 0x41#8] ∧
    deserialise [0x00#8, 0x41#8, 0x01#8] = none := by decide

/-- L1.3 and a frozen row of L2.4. -/
theorem test_compress :
    compress 4096 [65#8, 65#8, 65#8, 65#8] = [65, 256, 65] ∧
    compress 257 [65#8, 66#8, 65#8, 66#8, 65#8, 66#8, 65#8, 66#8] = [65, 66, 256, 256, 256] := by decide +kernel

/-- Rows of L2.5: a repair, two frozen repairs, an unknown code, a bad first code. -/
theorem test_decompress :
    decompress 4096 [65, 256, 65] = some [65#8, 65#8, 65#8, 65#8] ∧
    decompress 257 [65, 66, 257] = some [65#8, 66#8, 66#8, 66#8] ∧
    decompress 4096 [65, 257] = none ∧ decompress 4096 [256] = none := by decide +kernel

/-! ### The observation of a run (R81, R245) -/

/-- An exchange of a command with an `OK` response. -/
def answers (i : Instr) (data : List Byte) (codes : List Code) : Exchange :=
  { event := .command (encode i), responses := [{ status := .ok, value := 0, data := data, codes := codes }] }

/-- R81: the string of an interleaved `TBL_RESOLVE` is no part of a decode run's output, and nothing after its end is. -/
theorem test_observe_leaves_reads_out :
    observe [answers .decStart [] [], answers (.decCode 65#16) [65#8] [], answers (.tblResolve 66#16) [66#8] [],
        answers (.decCode 67#16) [67#8] [], answers .decEnd [] [], answers (.tblResolve 68#16) [68#8] []] =
      some (.decoded [65#8, 67#8] .ok) := by decide

/-- R245, T5 rows 1 to 5 of L2.2: an abandoned run has no defined output, and one that has not ended has none yet. -/
theorem test_observe_abandoned :
    observe [answers .encStart [] [], answers (.encByte 65#8) [] [], answers (.encByte 66#8) [] [65#16],
      answers .tblReset [] []] = none ∧
    observe [answers .encStart [] [], answers (.encByte 65#8) [] []] = none ∧
    observe [answers .encStart [] [], answers (.encByte 65#8) [] [], answers .encFlush [] [65#16]] =
      some (.encoded [65#16] .ok) := by decide

/-! ### One step of each command -/

/-- T5 rows 11 and 12 of L2.2: `TBL_RESET` of a failed run. -/
theorem test_tblReset_clears_a_failed_run :
    seen (fun t => (t.fsm, t.err, t.errCause, t.errCode, t.nextCode)) (exec .tblReset { failed300 with nextCode := 300#17 }) =
      some (.idle, false, .none, 0#16, 256#17) := by decide

/-- T1 rows 3 and 4. -/
theorem test_tblLookup :
    lastOf (exec (.tblLookup 0#8) (withAB 4096#17 .idle)) = reply .ok 0#32 [] ∧
    lastOf (exec (.tblLookup 255#8) (withAB 4096#17 .idle)) = reply .ok 255#32 [] := by decide +kernel

/-- T1 rows 5, 6 and 7. -/
theorem test_tblLookupPrefix :
    lastOf (exec (.tblLookupPrefix 65#16 66#8) (withAB 4096#17 .idle)) = reply .ok 256#32 [] ∧
    lastOf (exec (.tblLookupPrefix 65#16 67#8) (withAB 4096#17 .idle)) = reply .notFound 0#32 [] ∧
    lastOf (exec (.tblLookupPrefix 256#16 67#8) (withAB 4096#17 .idle)) = reply .notFound 0#32 [] := by decide +kernel

/-- T1 rows 8 and 9. -/
theorem test_tblLookupPrefix_absent :
    lastOf (exec (.tblLookupPrefix 257#16 67#8) (withAB 4096#17 .idle)) = reply .operandError 0#32 [] ∧
    lastOf (exec (.tblLookupPrefix 65535#16 0#8) (withAB 4096#17 .idle)) = reply .operandError 0#32 [] := by decide

/-- T1 row 2, and L2.3 with `MAX_WIDTH = 12`: the 256th learn answers 511 and widens the nominal code. -/
theorem test_tblLearn :
    seen (fun t => (t.entries, t.nextCode)) (exec (.tblLearn 65#16 66#8) (seeded 4096#17 .idle)) =
      some ([(256, { pre := 65#16, suffix := 66#8 })], 257#17) ∧
    lastOf (exec (.tblLearn 65#16 66#8) (seeded 4096#17 .idle)) = reply .ok 256#32 [] ∧
    seen (·.curWidth) (exec (.tblLearn 65#16 66#8) { seeded 4096#17 .idle with nextCode := 511#17 }) = some 10#5 := by decide

/-- T3 row 4; L2.1: the state is checked before the operand. -/
theorem test_tblLearn_frozen_and_rejected :
    lastOf (exec (.tblLearn 65#16 67#8) (withAB 257#17 .idle)) = reply .ok 0xFFFFFFFF#32 [] ∧
    lastOf (exec (.tblLearn 256#16 65#8) (seeded 4096#17 .encRun)) = reply .stateError 0#32 [] := by decide

/-- T1 rows 11 to 14. -/
theorem test_tblResolve :
    lastOf (exec (.tblResolve 255#16) (withAB 4096#17 .idle)) = reply .ok 1#32 [0xFF#8] ∧
    lastOf (exec (.tblResolve 256#16) (withAB 4096#17 .idle)) = reply .ok 2#32 [65#8, 66#8] ∧
    lastOf (exec (.tblResolve 257#16) (withAB 4096#17 .idle)) = reply .notFound 0#32 [] := by decide +kernel

/-- R131: `ENC_START` in `DEC_FAILED` clears the record; `PREV_CODE` is unchanged. -/
theorem test_encStart :
    seen (fun t => (t.fsm, t.err, t.prevCode, t.bufValid))
      (exec .encStart { failed300 with prevCode := 7#16, bufValid := true }) = some (.encRun, false, 7#16, false) := by decide

/-- T5 row 3 of L2.2, and the learned entry of R132's example. -/
theorem test_encByte_emits :
    seen (fun t => (t.entries, t.nextCode, t.bufCode, t.output)) (exec (.encByte 66#8) encA) =
      some ([(256, { pre := 65#16, suffix := 66#8 })], 257#17, 66#16,
        [{ status := .ok, value := 1#32, data := [], codes := [65#16] }]) := by decide +kernel

/-- R138's fourth row, on a table that has "AB": the candidate is found; T5 row 2: the first byte. -/
theorem test_encByte_extends :
    seen (fun t => (t.nextCode, t.bufCode, t.bufValid))
      (exec (.encByte 66#8) { withAB 4096#17 .encRun with bufValid := true, bufCode := 65#16 }) =
      some (257#17, 256#16, true) ∧
    seen (fun t => (t.bufCode, t.bufValid)) (exec (.encByte 65#8) (seeded 4096#17 .encRun)) = some (65#16, true) := by
  decide +kernel

/-- R133's example, and L1.1 row 2. -/
theorem test_encFlush :
    seen (fun t => (t.fsm, t.bufValid, t.output)) (exec .encFlush encA) =
      some (.idle, false, [{ status := .ok, value := 1#32, data := [], codes := [65#16] }]) ∧
    lastOf (exec .encFlush (seeded 4096#17 .encRun)) = reply .ok 0#32 [] := by decide

/-- R151: `BUF_CODE` is unchanged. -/
theorem test_decStart :
    seen (fun t => (t.fsm, t.prevCode, t.bufCode, t.err)) (exec .decStart { failed300 with bufCode := 9#16, prevCode := 7#16 }) =
      some (.decFirst, 0#16, 9#16, false) := by decide

/-- R152's example: the repair of 256 after "A"; L1.9's frozen row. -/
theorem test_decCode_repairs :
    seen (fun t => (t.entries, t.prevCode, t.output)) (exec (.decCode 256#16) (decA 4096#17)) =
      some ([(256, { pre := 65#16, suffix := 65#8 })], 256#16,
        [{ status := .ok, value := 2#32, data := [65#8, 65#8], codes := [] }]) ∧
    seen (fun t => (t.entries, t.prevCode, t.prevExt)) (exec (.decCode 256#16) (decA 256#17)) =
      some ([], 65#16, 1#32) := by decide +kernel

/-- L1.8, T5 row 9 and R158: the three failures. -/
theorem test_decCode_fails :
    lastOf (exec (.decCode 257#16) (decA 4096#17)) = reply .invalidStream 0x00030101#32 [] ∧
    lastOf (exec (.decCode 300#16) (seeded 4096#17 .decFirst)) = reply .invalidStream 0x0002012C#32 [] ∧
    lastOf (exec (.decCode 256#16) decFull) = reply .invalidStream 0x00040100#32 [] := by decide +kernel

/-- L1.1 row 4, and the end of a failed run (R154). -/
theorem test_decEnd :
    lastOf (exec .decEnd (seeded 4096#17 .decFirst)) = reply .invalidStream 0x00010000#32 [] ∧
    seen (fun t => (t.fsm, t.err, t.errCode)) (exec .decEnd failed300) = some (.idle, true, 300#16) := by decide

/-- T5 rows 4 and 10, T4 row 2: `STATUS` = 33, 12, 16. -/
theorem test_regRead_status :
    lastOf (exec (.regRead 0#8) encA) = reply .ok 33#32 [] ∧
    lastOf (exec (.regRead 0#8) failed300) = reply .ok 12#32 [] ∧
    lastOf (exec (.regRead 0#8) (seeded 256#17 .idle)) = reply .ok 16#32 [] := by decide

/-- R181: the hardwired parameters and the error record, each at its own index. -/
theorem test_regRead_map :
    lastOf (exec (.regRead 3#8) State.reset) = reply .ok 4096#32 [] ∧
    lastOf (exec (.regRead 4#8) State.reset) = reply .ok 12#32 [] ∧
    lastOf (exec (.regRead 8#8) failed300) = reply .ok 2#32 [] ∧
    lastOf (exec (.regRead 9#8) failed300) = reply .ok 300#32 [] := by decide

/-! ### Witnesses: a state and operands that meet the hypotheses of each statement that has some, for each of its clauses -/

/-- The clauses of the invariant that are decided on a concrete state. -/
abbrev Plain (s : State) : Prop :=
  s.params.Legal ∧ Memory.wf s.entries ∧ (∀ x ∈ s.entries, 256 ≤ x.1 ∧ x.1 < s.params.capacity.toNat) ∧
  (256 ≤ s.nextCode.toNat ∧ s.nextCode.toNat ≤ s.params.capacity.toNat) ∧
  s.curWidth.toNat = min s.params.maxWidth.toNat (bitlen s.nextCode.toNat) ∧
  (s.fsm = .encRun → s.bufValid = true → s.Present s.bufCode.toNat) ∧
  (s.fsm = .decFirst ∨ s.fsm = .decRun ∨ s.fsm = .decFailed → s.Present s.prevCode.toNat) ∧
  (s.fsm = .decRun → s.nextCode ≠ s.params.capacity → s.prevExt = 0) ∧
  (s.fsm = .decFirst → s.nextCode = 256#17) ∧ (s.err = true ↔ s.errCause ≠ .none) ∧
  (s.errCause = .none ∨ s.errCause = .emptyStream → s.errCode = 0) ∧ (s.fsm = .decFailed → s.err = true) ∧
  (s.fsm = .encRun ∨ s.fsm = .decFirst ∨ s.fsm = .decRun → s.err = false)

/-- No two seeds hold the same string. -/
theorem seeds_unique {s : State} (hn : s.nextCode = 256#17) (j k : Nat) (hj : s.Present j) (hk : s.Present k)
    (h : strOf s j = strOf s k) : j = k := by
  have e : s.nextCode.toNat = 256 := by rw [hn]; rfl
  have hj' : j < 256 := by have : j < s.nextCode.toNat := hj; omega
  have hk' : k < 256 := by have : k < s.nextCode.toNat := hk; omega
  rw [strOf_seed hj' hj, strOf_seed hk' hk] at h
  have := congrArg BitVec.toNat (List.head_eq_of_cons_eq (Option.some.inj h))
  simp at this
  omega

/-- A concrete state whose table is the seeds meets the invariant where its plain clauses hold. -/
theorem inv_seeds {s : State} (h : Plain s) (hn : s.nextCode = 256#17) : s.Inv := by
  obtain ⟨h1, h2, h3, h4, h5, h6, h7, h8, h9, h10, h11, h12, h13⟩ := h
  refine ⟨h1, h2, h3, h4, fun k hk hp => ?_, h5, h6, fun _ => seeds_unique hn, h7, h8, h9, h10, h11, h12, h13⟩
  have : k < (256#17).toNat := hn ▸ hp
  have e : (256#17).toNat = 256 := rfl
  have hk' : 256 ≤ k := hk
  omega

/-- So does one that has learned "AB" and is in no encode run. -/
theorem inv_withAB {s : State} (h : Plain s) (hn : s.nextCode = 257#17)
    (he : s.entries = [(256, { pre := 65#16, suffix := 66#8 })]) (hf : s.fsm ≠ .encRun) : s.Inv := by
  obtain ⟨h1, h2, h3, h4, h5, h6, h7, h8, h9, h10, h11, h12, h13⟩ := h
  refine ⟨h1, h2, h3, h4, fun k hk hp => ?_, h5, h6, fun hf' => absurd hf' hf, h7, h8, h9, h10, h11, h12, h13⟩
  have : k < (257#17).toNat := hn ▸ hp
  have e : (257#17).toNat = 257 := rfl
  have hk' : 256 ≤ k := hk
  obtain rfl : k = 256 := by omega
  exact ⟨{ pre := 65#16, suffix := 66#8 }, by rw [he]; rfl, by decide⟩

theorem ab_inv : (withAB 4096#17 .idle).Inv := inv_withAB (by decide) rfl rfl (by decide)

theorem abFull_inv : (withAB 257#17 .idle).Inv := inv_withAB (by decide) rfl rfl (by decide)

theorem encA_inv : encA.Inv := inv_seeds (by decide) rfl

theorem enc_inv : (seeded 4096#17 .encRun).Inv := inv_seeds (by decide) rfl

theorem decA_inv : (decA 4096#17).Inv := inv_seeds (by decide) rfl

theorem decAFull_inv : (decA 256#17).Inv := inv_seeds (by decide) rfl

theorem decFull_inv : decFull.Inv := inv_seeds (by decide) rfl

/-- The invariant says nothing of the host's events. -/
theorem inv_with_input {s : State} (h : s.Inv) (e : List HostEvent) : State.Inv { s with input := e } :=
  ⟨h.1, h.2, h.3, h.4, h.5, h.6, h.7, h.8, h.9, h.10, h.11, h.12, h.13, h.14, h.15⟩

theorem witness_IllegalWordHasNoEffect :
    ∃ (s : State) (w v : CommandWord), s.Inv ∧ s.input = [.command w] ∧ IllegalWord w ∧ ¬ IllegalWord v :=
  ⟨{ encA with input := [.command 0x0#32] }, 0x0#32, 0x10000000#32, inv_with_input encA_inv _, rfl, .inl rfl, by
    unfold IllegalWord; decide⟩

theorem witness_EncodeOfDecodeIsTheWord : decode 0xB0000009#32 = .ok (.regRead 9#8) := rfl

theorem witness_DecodeOfEncodeIsTheCommand :
    (Instr.regRead 9#8).WellFormed = true ∧ (Instr.tblLearn 65535#16 255#8).WellFormed = true := by decide

theorem witness_StepRunsTheDecodedCommand :
    ∃ s : State, s.params.Legal ∧ s.input = [.command 0x50000000#32] ∧ decode 0x50000000#32 = .ok .encStart ∧
      Instr.encStart.WellFormed = true :=
  ⟨{ encA with input := [.command 0x50000000#32] }, by decide, rfl, rfl, rfl⟩

theorem witness_BlockWithoutACommandWaits : encA.params.Legal ∧ encA.input = [] := ⟨by decide, rfl⟩

theorem witness_RefusedExactlyForIllegalParameters :
    (∃ r, step (seeded 255#17 .idle) = .refused r) ∧ (seeded 256#17 .idle).params.Legal := ⟨⟨_, rfl⟩, by decide⟩

/-- For HardwareResetValues and HardwareResetKeepsTheStreams. -/
theorem witness_HardwareReset :
    ∃ s : State, s.params.Legal ∧ s.input = [.reset, .command 0x0#32] ∧ s.err = true :=
  ⟨{ failed300 with input := [.reset, .command 0x0#32] }, by decide, rfl, rfl⟩

theorem witness_ResetInFlightPerformsAllOrNothing :
    ∃ s : State, s.Inv ∧ s.input = [.resetInFlight 0x70000000#32] :=
  ⟨{ encA with input := [.resetInFlight 0x70000000#32] }, inv_with_input encA_inv _, rfl⟩

theorem witness_EveryCommandGetsExactlyOneResponse : ∃ s : State, s.Inv ∧ s.input = [.command 0x70000000#32] :=
  ⟨{ encA with input := [.command 0x70000000#32] }, inv_with_input encA_inv _, rfl⟩

/-- A rejection: for ShapeOfEveryResponse, StateErrorExactlyOnTheMatrix, RejectedCommandWritesNothing, FsmTransitions. -/
theorem witness_rejected : ∃ r t, Responds (.encByte 0#8) (withAB 4096#17 .idle) r t ∧ r.status = .stateError ∧
    r.status.IsRejection ∧ StateErrorAt (.encByte 0#8) (withAB 4096#17 .idle).fsm :=
  ⟨_, _, ⟨rfl, rfl⟩, rfl, .inr (.inl rfl), by unfold StateErrorAt; decide⟩

/-- For OperandErrorExactlyOnAbsentPrefixes. -/
theorem witness_operandError : ∃ r t, Responds (.tblLearn 257#16 0#8) (withAB 4096#17 .idle) r t ∧
    r.status = .operandError ∧ (withAB 4096#17 .idle).nextCode.toNat ≤ (257#16).toNat :=
  ⟨_, _, ⟨rfl, rfl⟩, rfl, by decide⟩

/-- A failure of each cause: for FailuresArePrecise, and the second clause of ShapeOfEveryResponse. -/
theorem witness_FailuresArePrecise :
    (∃ r t, Responds (.decCode 256#16) (seeded 4096#17 .decFirst) r t ∧ r.status = .invalidStream) ∧
    (∃ r t, Responds (.decCode 257#16) (decA 4096#17) r t ∧ r.status = .invalidStream) ∧
    (∃ r t, Responds (.decCode 256#16) decFull r t ∧ r.status = .invalidStream) ∧
    (seeded 4096#17 .decFirst).Inv ∧ (decA 4096#17).Inv ∧ decFull.Inv ∧ (decA 4096#17).fsm ≠ .decFailed :=
  ⟨⟨_, _, ⟨rfl, rfl⟩, rfl⟩, ⟨_, _, ⟨rfl, rfl⟩, rfl⟩, ⟨_, _, ⟨rfl, rfl⟩, rfl⟩, inv_seeds (by decide) rfl, decA_inv,
    decFull_inv, by decide⟩

/-- A command that is not rejected, with an emitted code; also for FsmTransitions and EncoderRaisesNoError. -/
theorem witness_EmittedCodesAreBelowCapacity :
    encA.Inv ∧ ∃ r t, Responds .encFlush encA r t ∧ 65#16 ∈ r.codes ∧ ¬ r.status.IsRejection :=
  ⟨encA_inv, _, _, ⟨rfl, rfl⟩, by decide, by simp [Status.IsRejection]⟩

theorem witness_InvariantIsKeptByEveryStep :
    ∃ s t : State, s.Inv ∧ step s = .next t ∧ t.fsm ≠ s.fsm :=
  ⟨{ encA with input := [.command 0x70000000#32] }, _, inv_with_input encA_inv _, rfl, by decide⟩

/-- A table with a learned code, at each boundary of the clauses of StringOfEveryCode, PrefixesOfStringsArePresent,
FindAnswersTheLeastCode, LookupChainFindsAnyString, LookupAnswersTheLeastCode and ResolveAnswersTheString: the last seed, the
learned code, the first code that is not present; also for EveryStepGoesOn. -/
theorem witness_table :
    (withAB 4096#17 .idle).Inv ∧ (withAB 4096#17 .idle).Present 255 ∧ (withAB 4096#17 .idle).Present 256 ∧
    ¬ (withAB 4096#17 .idle).Present 257 ∧ strOf (withAB 4096#17 .idle) 255 = some [255#8] ∧
    strOf (withAB 4096#17 .idle) 256 = some [65#8, 66#8] := ⟨ab_inv, by decide, by decide, by decide, rfl, rfl⟩

theorem witness_FindMatchesTheKeyWithoutDuplicates :
    (seeded 4096#17 .idle).Inv ∧ strOf (seeded 4096#17 .idle) (65#16).toNat = some [65#8] ∧
    ∀ j k, (seeded 4096#17 .idle).Present j → (seeded 4096#17 .idle).Present k →
      strOf (seeded 4096#17 .idle) j = strOf (seeded 4096#17 .idle) k → j = k :=
  ⟨inv_seeds (by decide) rfl, rfl, seeds_unique rfl⟩

theorem witness_TableResetLeavesTheSeeds : ∃ t, IsTableReset .decStart ∧ exec .decStart encA = .next t :=
  ⟨_, .inr (.inr rfl), rfl⟩

theorem witness_LearnInEveryCase :
    encA.Inv ∧ encA.fsm ≠ .idle ∧
    (withAB 4096#17 .idle).Inv ∧ (256#16).toNat < (withAB 4096#17 .idle).nextCode.toNat ∧
    (withAB 4096#17 .idle).nextCode ≠ (withAB 4096#17 .idle).params.capacity ∧
    (withAB 4096#17 .idle).nextCode.toNat ≤ (257#16).toNat ∧
    (withAB 257#17 .idle).Inv ∧ (withAB 257#17 .idle).nextCode = (withAB 257#17 .idle).params.capacity :=
  ⟨encA_inv, by decide, ab_inv, by decide, by decide, by decide, abFull_inv, rfl⟩

/-- An empty buffer finds every byte; the buffer "A" does not find "AB" on the seeds. -/
theorem witness_EncodeByteExtendsOrEmits :
    (seeded 4096#17 .encRun).Inv ∧ findCode (seeded 4096#17 .encRun) [65#8] = some 65 ∧
    encA.Inv ∧ encA.bufValid = true ∧ findCode encA [65#8, 66#8] = none ∧ (withAB 4096#17 .idle).fsm ≠ .encRun :=
  ⟨enc_inv, by decide +kernel, encA_inv, rfl, by decide +kernel, by decide⟩

theorem witness_FirstByteBecomesTheBuffer :
    (seeded 4096#17 .encRun).Inv ∧ (seeded 4096#17 .encRun).fsm = .encRun ∧ (seeded 4096#17 .encRun).bufValid = false :=
  ⟨enc_inv, rfl, rfl⟩

theorem witness_FlushEmitsTheBuffer :
    (withAB 4096#17 .idle).fsm ≠ .encRun ∧ encA.fsm = .encRun ∧ encA.bufValid = true ∧
    (seeded 4096#17 .encRun).fsm = .encRun ∧ (seeded 4096#17 .encRun).bufValid = false := by decide

theorem witness_FirstCodeMustBeASeed :
    (seeded 4096#17 .decFirst).fsm = .decFirst ∧ (255#16).toNat < 256 ∧ 256 ≤ (256#16).toNat := by decide

/-- Below, at and above `NEXT_CODE`, with the table below capacity: for PresentCodeIsOutputAndLearned,
RepairedEntryIsLearnedAtItsCode and CodeAboveNextFails. -/
theorem witness_laterCodes :
    (decA 4096#17).Inv ∧ (decA 4096#17).fsm = .decRun ∧ (255#16).toNat < (decA 4096#17).nextCode.toNat ∧
    (256#16).toNat = (decA 4096#17).nextCode.toNat ∧ (decA 4096#17).nextCode ≠ (decA 4096#17).params.capacity ∧
    (decA 4096#17).nextCode.toNat < (257#16).toNat :=
  ⟨decA_inv, rfl, by decide, rfl, by decide, by decide⟩

/-- On a frozen table, with the counter at both ends of its range. -/
theorem witness_FrozenRepairCountsOrOverflows :
    (decA 256#17).Inv ∧ decFull.Inv ∧ (decA 256#17).nextCode = (decA 256#17).params.capacity ∧
    (256#16).toNat = (decA 256#17).params.capacity.toNat ∧ (decA 256#17).prevExt.toNat ≠ 2 ^ 32 - 1 ∧
    decFull.prevExt.toNat = 2 ^ 32 - 1 ∧ decFull.fsm = .decRun :=
  ⟨decAFull_inv, decFull_inv, rfl, rfl, by decide, rfl, rfl⟩

theorem witness_EndOfTheCodeStream :
    (withAB 4096#17 .idle).fsm = .idle ∧ encA.fsm = .encRun ∧ (seeded 4096#17 .decFirst).fsm = .decFirst ∧
    failed300.fsm = .decFailed ∧ (decA 4096#17).fsm = .decRun := by decide

theorem witness_FailureIsSticky :
    failed300.fsm = .decFailed ∧ failed300.err = true ∧ ∃ t, exec (.regRead 9#8) failed300 = .next t ∧
      ¬ IsTableReset (.regRead 9#8) := ⟨rfl, rfl, _, rfl, by simp [IsTableReset]⟩

/-- An output of the decoder, for the bound on its length. -/
theorem witness_OutputLengthIsBounded :
    (seeded 4096#17 .decFirst).Inv ∧
    ∃ r t, Responds (.decCode 255#16) (seeded 4096#17 .decFirst) r t ∧ r.data = [255#8] :=
  ⟨inv_seeds (by decide) rfl, _, _, ⟨rfl, rfl⟩, rfl⟩

theorem witness_RegisterReadsFollowTheMap : (9#8).toNat ≤ 9 ∧ 9 < (10#8).toNat := by decide

/-- Commands that complete, a read, a learn below capacity and on a frozen table, and one table reset twice: for
OnlyTheseCommandsWrite, ReadsArePureAndResetsIdempotent and NextCodeGrowsUntilFrozen. -/
theorem witness_writes :
    (withAB 4096#17 .idle).Inv ∧ (∃ t, exec (.regRead 0#8) (withAB 4096#17 .idle) = .next t) ∧
    (∃ t, exec (.tblLearn 256#16 0#8) (withAB 4096#17 .idle) = .next t ∧ ¬ IsTableReset (.tblLearn 256#16 0#8)) ∧
    (withAB 257#17 .idle).Inv ∧ (withAB 257#17 .idle).nextCode = (withAB 257#17 .idle).params.capacity ∧
    (∃ t, exec (.tblLearn 256#16 0#8) (withAB 257#17 .idle) = .next t) ∧
    ∃ t u, exec .encStart (withAB 4096#17 .idle) = .next t ∧ exec .encStart t = .next u :=
  ⟨ab_inv, ⟨_, rfl⟩, ⟨_, rfl, by simp [IsTableReset]⟩, abFull_inv, rfl, ⟨_, rfl⟩, _, _, rfl, rfl⟩

/-- Two instances that differ in `MAX_WIDTH` alone. -/
theorem witness_CodeWidthIsInert :
    ∃ s t : State, s ≠ t ∧ blankWidth s = blankWidth t ∧ Instr.regRead 4 ≠ Instr.regRead 2 :=
  ⟨encA, { encA with params := { capacity := 4096#17, maxWidth := 9#5 } }, by decide, rfl, by decide⟩

/-- A legal instance at each bound of `CAPACITY`, a stream that decodes and one that does not: for InvariantHoldsAtReset,
EncodeRunIsCompress, DecodeRunIsDecompress, DecompressInvertsCompress, EncoderAndDecoderStayInLockStep,
LearnsAreOneFewerThanCodes and SingleByteCompressesToItsSeed. -/
theorem witness_runs :
    (seeded 256#17 .idle).params.Legal ∧ (seeded 65536#17 .idle).params.Legal ∧
    decompress (seeded 256#17 .idle).params.capacity.toNat ([65#16, 256#16].map BitVec.toNat) =
      some [65#8, 65#8, 65#8] ∧
    decompress (seeded 256#17 .idle).params.capacity.toNat ([] : List Nat) = none ∧
    [65#16, 256#16].length < 2 ^ 32 ∧ [65#8] ≠ [] :=
  ⟨by decide, by decide, by decide +kernel, rfl, by decide, by decide⟩

/-- Reads interleaved in a run, for InterleavedReadsAreNoPartOfTheRun: in an encode run, and in a decode run that ends well and
one that fails. -/
theorem witness_InterleavedReadsAreNoPartOfTheRun :
    (seeded 256#17 .idle).params.Legal ∧
    [Instr.tblResolve 65#16, .encByte 65#8, .regRead 0#8, .encFlush].filter (fun i => !isRead i) =
      [65#8].map .encByte ++ [.encFlush] ∧
    [Instr.tblResolve 65#16, .decCode 65#16, .decEnd, .regRead 0#8].filter (fun i => !isRead i) =
      [65#16].map .decCode ++ [.decEnd] ∧
    decompress 256 ([65#16].map BitVec.toNat) = some [65#8] ∧
    [Instr.regRead 0#8, .decEnd].filter (fun i => !isRead i) = ([] : List Code).map .decCode ++ [.decEnd] ∧
    decompress 256 [] = none :=
  ⟨by decide, rfl, rfl, by decide +kernel, rfl, rfl⟩

end Sys2Proof.Machine.Tests
end

/-! Refusals (R10). A step refuses an illegal parameter set and nothing else: no operation, no command and no event of the
host is answered with a refusal. -/

namespace Sys2Proof.Machine

section Refusals

variable {s : State} {q : Refusal}

/-! ### The shared operations -/

@[simp] theorem finish_ne_refused {st : Status} {v : Value} {d : List Byte} {c : List Code} :
    finish s st v d c ≠ .refused q := nofun

@[simp] theorem cmdError_ne_refused {st : Status} : cmdError s st ≠ .refused q := finish_ne_refused

@[simp] theorem raiseInvalidStream_ne_refused {cause : ErrCause} {code : Code} :
    raiseInvalidStream s cause code ≠ .refused q := finish_ne_refused

@[simp] theorem repeatFailure_ne_refused : repeatFailure s ≠ .refused q := finish_ne_refused

@[simp] theorem returnFromFailure_ne_refused : returnFromFailure s ≠ .refused q := repeatFailure_ne_refused

/-- The legality matrix itself refuses nothing: its rejection is a response (R207). -/
theorem guarded_ne_refused {g : Guarded} {body : Result} (h : body ≠ .refused q) :
    guarded g s body ≠ .refused q := by
  unfold guarded
  split
  · exact h
  · exact cmdError_ne_refused

/-- A string that is not defined is a fault, not a refusal. -/
theorem withString_ne_refused {k : Nat} {str : Option (List Byte)} {body : List Byte → Result}
    (h : ∀ x, body x ≠ .refused q) : withString k str body ≠ .refused q := by
  cases str with
  | none => exact nofun
  | some x => exact h x

/-! ### The bodies the commands share or branch into -/

theorem lookupResponse_ne_refused {str : List Byte} : lookupResponse s str ≠ .refused q := by
  unfold lookupResponse
  split <;> exact finish_ne_refused

theorem encodeByte_ne_refused {b : Byte} {buffer : List Byte} : encodeByte s b buffer ≠ .refused q := by
  unfold encodeByte
  split <;> exact finish_ne_refused

theorem decodeFirst_ne_refused {c : Code} : decodeFirst s c ≠ .refused q := by
  unfold decodeFirst
  split
  · exact finish_ne_refused
  · exact raiseInvalidStream_ne_refused

theorem decodeEntry_ne_refused {c : Code} {repair : Bool} {entry : List Byte} :
    decodeEntry s c repair entry ≠ .refused q := by
  cases entry with
  | nil => exact nofun
  | cons x xs =>
    simp only [decodeEntry]
    split <;> exact finish_ne_refused

/-- A present code, the next code with its repair, and an unknown code (R152, R153, R162). -/
theorem decodeNext_ne_refused {c : Code} : decodeNext s c ≠ .refused q := by
  unfold decodeNext
  split
  · exact withString_ne_refused fun _ => decodeEntry_ne_refused
  · split
    · split
      · exact raiseInvalidStream_ne_refused
      · exact withString_ne_refused fun _ => decodeEntry_ne_refused
    · exact raiseInvalidStream_ne_refused

/-! ### The commands -/

theorem execTblLookupPrefix_ne_refused {p : Code} {b : Byte} : execTblLookupPrefix p b s ≠ .refused q := by
  unfold execTblLookupPrefix
  split
  · exact withString_ne_refused fun _ => lookupResponse_ne_refused
  · exact cmdError_ne_refused

theorem execTblLearn_ne_refused {p : Code} {b : Byte} : execTblLearn p b s ≠ .refused q := by
  refine guarded_ne_refused ?_
  split
  · split <;> exact finish_ne_refused
  · exact cmdError_ne_refused

theorem execTblResolve_ne_refused {c : Code} : execTblResolve c s ≠ .refused q := by
  unfold execTblResolve
  split
  · exact withString_ne_refused fun _ => finish_ne_refused
  · exact finish_ne_refused

theorem execDecCode_ne_refused {c : Code} : execDecCode c s ≠ .refused q := by
  refine guarded_ne_refused ?_
  split
  · exact repeatFailure_ne_refused
  · exact decodeFirst_ne_refused
  · exact decodeNext_ne_refused

theorem execDecEnd_ne_refused : execDecEnd s ≠ .refused q := by
  refine guarded_ne_refused ?_
  split
  · exact finish_ne_refused
  · exact returnFromFailure_ne_refused
  · exact finish_ne_refused

theorem execRegRead_ne_refused {r : Byte} : execRegRead r s ≠ .refused q := by
  unfold execRegRead
  split
  · exact finish_ne_refused
  · exact cmdError_ne_refused

/-- No command is refused, whatever the state and the parameters. -/
theorem exec_ne_refused {i : Instr} : exec i s ≠ .refused q := by
  cases i with
  | tblReset => exact finish_ne_refused
  | tblLookup b => exact lookupResponse_ne_refused
  | tblLookupPrefix p b => exact execTblLookupPrefix_ne_refused
  | tblLearn p b => exact execTblLearn_ne_refused
  | tblResolve c => exact execTblResolve_ne_refused
  | encStart => exact finish_ne_refused
  | encByte b => exact guarded_ne_refused (withString_ne_refused fun _ => encodeByte_ne_refused)
  | encFlush => exact guarded_ne_refused finish_ne_refused
  | decStart => exact finish_ne_refused
  | decCode c => exact execDecCode_ne_refused
  | decEnd => exact execDecEnd_ne_refused
  | regRead r => exact execRegRead_ne_refused

/-! ### The host's events and the step -/

theorem performWord_ne_refused {w : CommandWord} : performWord w s ≠ .refused q := by
  unfold performWord
  split
  · exact exec_ne_refused
  · exact cmdError_ne_refused

/-- Performed or not, a command in flight at a reset ends in the reset or in the command's own fault (R231). -/
theorem resetInFlight_ne_refused {w : CommandWord} : resetInFlight w s ≠ .refused q := by
  simp only [resetInFlight]
  split
  · split
    · exact nofun
    · exact nofun
    · next h => exact absurd h performWord_ne_refused
  · exact nofun

theorem takeEvent_ne_refused {e : HostEvent} : takeEvent e s ≠ .refused q := by
  cases e with
  | command w => exact performWord_ne_refused
  | reset => exact nofun
  | resetInFlight w => exact resetInFlight_ne_refused

theorem takeNext_ne_refused : takeNext s ≠ .refused q := by
  unfold takeNext
  split
  · exact nofun
  · exact takeEvent_ne_refused

/-- What a refusal of a step means: the parameters are not legal, and that is its reason. -/
theorem step_eq_refused : step s = .refused q ↔ ¬ s.params.Legal ∧ q = .illegalParameters := by
  unfold step
  split
  · next hl => simp [hl, takeNext_ne_refused]
  · next hl => simp [hl, eq_comm]

end Refusals

/-- Settles O9: a step refuses on its parameters alone, and `Params.Legal` is the four bounds of R10. -/
theorem refusedExactlyForIllegalParameters : Obligations.RefusedExactlyForIllegalParameters := by
  intro s
  simp only [step_eq_refused, exists_and_left, exists_eq, and_true]

end Sys2Proof.Machine

/-! The state (10_state.md). -/

namespace Sys2Proof.Machine

/-- A code keeps its number where it is compared with `NEXT_CODE` (R72). -/
@[simp] theorem zext17_toNat (c : Code) : (zext17 c).toNat = c.toNat :=
  BitVec.toNat_setWidth_of_le (by decide)

/-- `TBL_LEARN` is legal in `IDLE` alone (R207). -/
theorem legalIn_learn {f : FsmState} : legalIn .learn f = true ↔ f = .idle := by cases f <;> decide

/-- `ENC_BYTE` and `ENC_FLUSH` are legal in `ENC_RUN` alone (R207). -/
theorem legalIn_encode {f : FsmState} : legalIn .encode f = true ↔ f = .encRun := by cases f <;> decide

/-- What a command writes besides its response, from `s` to `u` (R39, R210): one constructor per way a command can end. -/
inductive Writes : Instr → State → State → Prop where
  /-- A read, a rejected command (R206), and the repeated failure of a failed run (R205). -/
  | nothing {i s} : Writes i s s
  | tblReset {s} : Writes .tblReset s (clearError { tableReset s with
      fsm := .idle, bufValid := false, bufCode := 0#16, prevCode := 0#16, prevExt := 0#32 })
  | encStart {s} : Writes .encStart s (clearError { tableReset s with fsm := .encRun, bufValid := false, bufCode := 0#16 })
  | decStart {s} : Writes .decStart s (clearError { tableReset s with fsm := .decFirst, prevCode := 0#16, prevExt := 0#32 })
  /-- Below capacity and on a frozen table (R103, R107). -/
  | learn {s p b} (hf : s.fsm = .idle) (hp : s.Present p.toNat) : Writes (.tblLearn p b) s (insertEntry s p b).1
  /-- Step 2 of `ENC_BYTE` (R132). -/
  | extend {s b buf k} (hf : s.fsm = .encRun) (hbuf : bufStr s = some buf) (hk : findCode s (buf ++ [b]) = some k) :
      Writes (.encByte b) s { s with bufCode := BitVec.ofNat 16 k, bufValid := true }
  /-- Step 3 of `ENC_BYTE` (R132). -/
  | emit {s b buf} (hf : s.fsm = .encRun) (hbuf : bufStr s = some buf) (hnew : findCode s (buf ++ [b]) = none) :
      Writes (.encByte b) s { (insertEntry s s.bufCode b).1 with bufCode := b.setWidth 16, bufValid := true }
  | flush {s} (hf : s.fsm = .encRun) : Writes .encFlush s { s with bufValid := false, bufCode := 0#16, fsm := .idle }
  /-- The first code of a run, a seed (R155). -/
  | first {s c} (hf : s.fsm = .decFirst) (hc : c.toNat < 256) :
      Writes (.decCode c) s { s with prevCode := c, prevExt := 0#32, fsm := .decRun }
  /-- A present code, and the repair below capacity (R152, R153). -/
  | take {s c x} (hf : s.fsm = .decRun)
      (hc : s.Present c.toNat ∨ c.toNat = s.nextCode.toNat ∧ s.nextCode.toNat < s.params.capacity.toNat) :
      Writes (.decCode c) s { (insertEntry s s.prevCode x).1 with prevCode := c, prevExt := 0#32 }
  /-- The repair on a frozen table (R157). -/
  | count {s c} (hf : s.fsm = .decRun) (hc : s.params.capacity.toNat ≤ s.nextCode.toNat) :
      Writes (.decCode c) s { s with prevExt := s.prevExt + 1 }
  /-- The failure entry (R203). -/
  | fail {s c cause} (hf : s.fsm = .decFirst ∨ s.fsm = .decRun) (hc : cause ≠ .none ∧ cause ≠ .emptyStream) :
      Writes (.decCode c) s { recordError s cause c with fsm := .decFailed }
  /-- The empty stream (R154). -/
  | endEmpty {s} (hf : s.fsm = .decFirst) : Writes .decEnd s { recordError s .emptyStream 0#16 with fsm := .idle }
  /-- The end of a run that has taken a code, failed or not (R154, R211). -/
  | endRun {s} (hf : s.fsm = .decRun ∨ s.fsm = .decFailed) : Writes .decEnd s { s with fsm := .idle }

section Completes

variable {i : Instr} {s u t : State}

/-- The command is performed or rejected: what it writes, and one response after all the earlier ones (R77). -/
def Completes (i : Instr) (s t : State) : Prop :=
  ∃ u r, Writes i s u ∧ t = { u with output := u.output ++ [r] }

/-- A command that ends with a response has completed. -/
theorem Writes.completes (hw : Writes i s u) {st : Status} {v : Value} {d : List Byte} {c : List Code}
    (h : finish u st v d c = .next t) : Completes i s t :=
  ⟨u, _, hw, finish_eq_next.mp h⟩

/-- A guarded command that its state does not allow writes nothing (R206). -/
theorem completes_of_guarded {g : Guarded} {body : Result} (h : guarded g s body = .next t)
    (hb : legalIn g s.fsm = true → body = .next t → Completes i s t) : Completes i s t := by
  obtain ⟨hl, h⟩ | ⟨-, rfl⟩ := guarded_eq_next.mp h
  · exact hb hl h
  · exact Writes.nothing.completes rfl

theorem lookupResponse_completes {str : List Byte} (h : lookupResponse s str = .next t) : Completes i s t := by
  unfold lookupResponse at h
  split at h <;> exact Writes.nothing.completes h

theorem execTblLookupPrefix_completes {p : Code} {b : Byte} (h : execTblLookupPrefix p b s = .next t) :
    Completes i s t := by
  unfold execTblLookupPrefix at h
  split at h
  · obtain ⟨str, -, h⟩ := withString_eq_next.mp h
    exact lookupResponse_completes h
  · exact Writes.nothing.completes h

theorem execTblLearn_completes {p : Code} {b : Byte} (h : execTblLearn p b s = .next t) :
    Completes (.tblLearn p b) s t := by
  refine completes_of_guarded h fun hl h => ?_
  have hf := legalIn_learn.mp hl
  split at h
  case isTrue hp =>
    have hw : Writes (.tblLearn p b) s (insertEntry s p b).1 := .learn hf (by simpa using hp)
    split at h <;> next hi => rw [hi] at hw; exact hw.completes h
  case isFalse => exact Writes.nothing.completes h

theorem execTblResolve_completes {c : Code} (h : execTblResolve c s = .next t) : Completes i s t := by
  unfold execTblResolve at h
  split at h
  · obtain ⟨str, -, h⟩ := withString_eq_next.mp h
    exact Writes.nothing.completes h
  · exact Writes.nothing.completes h

theorem execEncByte_completes {b : Byte} (h : execEncByte b s = .next t) : Completes (.encByte b) s t := by
  refine completes_of_guarded h fun hl h => ?_
  have hf := legalIn_encode.mp hl
  obtain ⟨buf, hbuf, h⟩ := withString_eq_next.mp h
  unfold encodeByte at h
  split at h
  case h_1 k hk => exact (Writes.extend hf hbuf hk).completes h
  case h_2 hk => exact (Writes.emit hf hbuf hk).completes h

theorem execEncFlush_completes (h : execEncFlush s = .next t) : Completes .encFlush s t := by
  refine completes_of_guarded h fun hl h => ?_
  have hf := legalIn_encode.mp hl
  exact (Writes.flush hf).completes h

/-- The first code is a seed, or the run fails (R155). -/
theorem decodeFirst_completes {c : Code} (hf : s.fsm = .decFirst) (h : decodeFirst s c = .next t) :
    Completes (.decCode c) s t := by
  unfold decodeFirst at h
  split at h
  case isTrue hc => exact (Writes.first hf hc).completes h
  case isFalse => exact (Writes.fail (.inl hf) (by decide)).completes h

/-- A known entry is taken, or on a frozen table counted (R152, R157). -/
theorem decodeEntry_completes {c : Code} {repair : Bool} {entry : List Byte} (hf : s.fsm = .decRun)
    (hc : repair = false ∧ s.Present c.toNat ∨ repair = true ∧ c.toNat = s.nextCode.toNat)
    (h : decodeEntry s c repair entry = .next t) : Completes (.decCode c) s t := by
  cases entry with
  | nil => cases h
  | cons x xs =>
    simp only [decodeEntry, zext17_toNat] at h
    obtain ⟨rfl, hp⟩ | ⟨rfl, hn⟩ := hc
    · exact (Writes.take hf (.inl hp)).completes h
    · split at h
      case isTrue hlt => exact (Writes.take hf (.inr ⟨hn, by simpa [hn] using hlt⟩)).completes h
      case isFalse hlt =>
        have hfull : s.params.capacity.toNat ≤ s.nextCode.toNat := by simpa [hn] using hlt
        rw [insertEntry_frozen hfull] at h
        exact (Writes.count hf hfull).completes h

/-- A later code is present, exactly next, or unknown (R152, R153, R162). -/
theorem decodeNext_completes {c : Code} (hf : s.fsm = .decRun) (h : decodeNext s c = .next t) :
    Completes (.decCode c) s t := by
  unfold decodeNext at h
  split at h
  case isTrue hp =>
    obtain ⟨e, -, h⟩ := withString_eq_next.mp h
    exact decodeEntry_completes hf (.inl ⟨rfl, by simpa using hp⟩) h
  case isFalse =>
    split at h
    case isTrue hn =>
      split at h
      · exact (Writes.fail (.inr hf) (by decide)).completes h
      · obtain ⟨e, -, h⟩ := withString_eq_next.mp h
        exact decodeEntry_completes hf (.inr ⟨rfl, by simp [← hn]⟩) h
    case isFalse => exact (Writes.fail (.inr hf) (by decide)).completes h

theorem execDecCode_completes {c : Code} (h : execDecCode c s = .next t) : Completes (.decCode c) s t := by
  refine completes_of_guarded h fun hl h => ?_
  cases hf : s.fsm <;> simp only [hf, legalIn, Bool.false_eq_true] at hl h
  case decFirst => exact decodeFirst_completes hf h
  case decRun => exact decodeNext_completes hf h
  case decFailed => exact Writes.nothing.completes h

theorem execDecEnd_completes (h : execDecEnd s = .next t) : Completes .decEnd s t := by
  refine completes_of_guarded h fun hl h => ?_
  cases hf : s.fsm <;> simp only [hf, legalIn, Bool.false_eq_true] at hl h
  case decFirst => exact (Writes.endEmpty hf).completes h
  case decRun => exact (Writes.endRun (.inl hf)).completes h
  case decFailed => exact (Writes.endRun (.inr hf)).completes h

theorem execRegRead_completes {r : Byte} (h : execRegRead r s = .next t) : Completes i s t := by
  unfold execRegRead at h
  split at h <;> exact Writes.nothing.completes h

/-- Everything a command can do, in every state. -/
theorem exec_completes (h : exec i s = .next t) : Completes i s t := by
  cases i with
  | tblReset => exact Writes.tblReset.completes h
  | tblLookup b => exact lookupResponse_completes h
  | tblLookupPrefix p b => exact execTblLookupPrefix_completes h
  | tblLearn p b => exact execTblLearn_completes h
  | tblResolve c => exact execTblResolve_completes h
  | encStart => exact Writes.encStart.completes h
  | encByte b => exact execEncByte_completes h
  | encFlush => exact execEncFlush_completes h
  | decStart => exact Writes.decStart.completes h
  | decCode c => exact execDecCode_completes h
  | decEnd => exact execDecEnd_completes h
  | regRead r => exact execRegRead_completes h

end Completes

/-! Which commands write what (R39), and what the table keeps between resets (R26, R27). -/

section Table

variable {i : Instr} {s u : State}

/-- A command that is no table reset leaves the store and `NEXT_CODE`, or makes one insertion. -/
theorem Writes.store_eq (hw : Writes i s u) (hi : ¬ IsTableReset i) :
    (u.entries = s.entries ∧ u.nextCode = s.nextCode) ∨
    ∃ p b, u.entries = (insertEntry s p b).1.entries ∧ u.nextCode = (insertEntry s p b).1.nextCode := by
  cases hw with
  | tblReset => exact absurd (.inl rfl) hi
  | encStart => exact absurd (.inr (.inl rfl)) hi
  | decStart => exact absurd (.inr (.inr rfl)) hi
  | learn | emit | take => exact .inr ⟨_, _, rfl, rfl⟩
  | nothing | extend | flush | first | count | fail | endEmpty | endRun => exact .inl ⟨rfl, rfl⟩

/-- An insertion leaves `NEXT_CODE` or adds 1 (R26, R107). -/
theorem insertEntry_nextCode_same_or_succ (s : State) (p : Code) (b : Byte) :
    (insertEntry s p b).1.nextCode.toNat = s.nextCode.toNat ∨
    (insertEntry s p b).1.nextCode.toNat = s.nextCode.toNat + 1 := by
  by_cases h : s.nextCode.toNat < s.params.capacity.toNat
  · exact .inr (insertEntry_nextCode_toNat h p b)
  · rw [insertEntry_frozen (Nat.not_lt.mp h)]
    exact .inl rfl

end Table

/-- Settles O47: the response is no piece of state, and each way a command can end is held against the table of R39. -/
theorem onlyTheseCommandsWrite : Obligations.OnlyTheseCommandsWrite := by
  intro i s t h
  obtain ⟨u, r, hw, rfl⟩ := exec_completes h
  cases hw <;> simp [IsTableReset]

/-- Settles O49: between table resets the table changes by insertions alone. -/
theorem nextCodeGrowsUntilFrozen : Obligations.NextCodeGrowsUntilFrozen := by
  intro i s t hs h hi
  obtain ⟨u, r, hw, rfl⟩ := exec_completes h
  show (u.nextCode.toNat = _ ∨ u.nextCode.toNat = _) ∧ (∀ k < _, strOf u k = _) ∧ (_ → u.nextCode = _ ∧ u.entries = _)
  obtain ⟨he, hn⟩ | ⟨p, b, he, hn⟩ := hw.store_eq hi
  · exact ⟨.inl (by rw [hn]), fun k _ => strOf_congr he hn k, fun _ => ⟨hn, he⟩⟩
  · refine ⟨hn ▸ insertEntry_nextCode_same_or_succ s p b, fun k hk => ?_, fun hfull => ?_⟩
    · rw [strOf_congr he hn, strOf_insertEntry_old hs.linked p b hk]
    · rw [he, hn, insertEntry_frozen (by rw [hfull])]
      exact ⟨rfl, rfl⟩

/-! The strings of the codes (R22 to R29). -/

section Strings

variable {s : State}

/-- The seeds are always present (R22). -/
theorem seed_present (hn : Config.seedCount ≤ s.nextCode.toNat) {k : Nat} (hk : k < 256) : s.Present k :=
  Nat.lt_of_lt_of_le hk hn

/-- `FIRST` is the first byte of `STR` (R24). -/
theorem firstOf_eq_some {k : Nat} {x : Byte} {y : List Byte} (h : strOf s k = some (x :: y)) : firstOf s k = some x := by
  simp [firstOf, h]

/-- No code holds the empty string (R24). -/
theorem strOf_ne_nil (hl : Linked s.entries s.nextCode.toNat) (k : Nat) : strOf s k ≠ some [] := by
  intro h
  obtain ⟨x, hx, hne⟩ := strOf_defined hl (present_of_strOf h)
  rw [h] at hx
  exact hne (Option.some.inj hx).symm

end Strings

/-- Settles O18, one clause per case of the recursion of R24. -/
theorem stringOfEveryCode : Obligations.StringOfEveryCode := by
  intro s k h
  refine ⟨fun hk => strOf_seed hk (seed_present h.next_range.1 hk), fun h256 hk => ?_,
    fun hk => strOf_absent (Nat.not_lt.mpr hk), fun x y => firstOf_eq_some⟩
  obtain ⟨e, str, he, hlt, hpre, hstr⟩ := strOf_learned h.linked h256 hk
  obtain ⟨hmin, hmax⟩ := (strOf_length h.linked hstr).2 h256
  exact ⟨e, str, he, hlt, hpre, hstr, hmin, hmax⟩

/-- Settles O20: the least code is the one below which no code holds the string, and only present codes hold one. -/
theorem findAnswersTheLeastCode : Obligations.FindAnswersTheLeastCode := by
  intro s h
  refine ⟨fun str k => ?_, fun str => ?_, findCode_eq_none.mpr (strOf_ne_nil h.linked)⟩
  · rw [findCode_eq_some, and_assoc]
    refine and_congr_right fun _ => and_congr_right fun _ => ⟨fun hleast j _ hj => ?_, fun hleast j hlt hj => ?_⟩
    · exact Nat.not_lt.mp fun hlt => hleast j hlt hj
    · exact absurd (hleast j (present_of_strOf hj) hj) (Nat.not_le.mpr hlt)
  · rw [findCode_eq_none]
    exact ⟨fun hno k _ => hno k, fun hno k hk => hno k (present_of_strOf hk) hk⟩

/-! The nominal width (R108). -/

section Width

theorem lt_bitlen_iff {k n : Nat} (hn : n ≠ 0) : k < bitlen n ↔ 2 ^ k ≤ n := by
  rw [bitlen, Nat.lt_succ_iff, Nat.le_log2 hn]

/-- Counting by one makes a number at most one bit longer, at a power of two. -/
theorem bitlen_succ {n : Nat} (hn : n ≠ 0) :
    bitlen (n + 1) = if 2 ^ bitlen n ≤ n + 1 then bitlen n + 1 else bitlen n := by
  have hpow : n < 2 ^ bitlen n := Nat.lt_log2_self
  have hge : n.log2 < bitlen (n + 1) := (lt_bitlen_iff (by omega)).mpr (Nat.le_succ_of_le (Nat.log2_self_le hn))
  have hgt : bitlen n < bitlen (n + 1) ↔ 2 ^ bitlen n ≤ n + 1 := lt_bitlen_iff (by omega)
  have hle : ¬ bitlen n + 1 < bitlen (n + 1) := by
    rw [lt_bitlen_iff (by omega), Nat.pow_succ]
    omega
  have hn' : bitlen n = n.log2 + 1 := rfl
  split <;> omega

/-- Width tracking keeps `CUR_WIDTH` at the bits of `NEXT_CODE`, up to `MAX_WIDTH`. -/
theorem width_track {n w m : Nat} (hn : n ≠ 0) (hw : w = min m (bitlen n)) :
    (if 2 ^ w ≤ n + 1 ∧ w < m then w + 1 else w) = min m (bitlen (n + 1)) := by
  rw [bitlen_succ hn]
  by_cases hm : bitlen n < m
  · obtain rfl : w = bitlen n := by omega
    simp only [hm, and_true]
    split <;> omega
  · split <;> split <;> omega

end Width

/-! The invariant, by the parts of the state (10_state.md): the table, the error record, the run. -/

section Invariant

/-- The clauses on the table (R10, R20, R23, R26, R108); they read four fields of the state. -/
structure TableInv (p : Params) (m : Memory) (n : BitVec 17) (w : BitVec 5) : Prop where
  params_legal : p.Legal
  store_wf : Memory.wf m
  store_range : ∀ x ∈ m, Config.seedCount ≤ x.1 ∧ x.1 < p.capacity.toNat
  next_range : Config.seedCount ≤ n.toNat ∧ n.toNat ≤ p.capacity.toNat
  linked : Linked m n.toNat
  width_eq : w.toNat = min p.maxWidth.toNat (bitlen n.toNat)

abbrev State.TableOk (s : State) : Prop := TableInv s.params s.entries s.nextCode s.curWidth

/-- The clauses on the error record (R37). -/
abbrev State.RecordOk (s : State) : Prop :=
  (s.err = true ↔ s.errCause ≠ .none) ∧ (s.errCause = .none ∨ s.errCause = .emptyStream → s.errCode = 0)

/-- No two present codes hold the same string (R30). -/
def State.NoDuplicates (s : State) : Prop := ∀ j k, s.Present j → s.Present k → strOf s j = strOf s k → j = k

/-- The clauses on the run, in each state of the FSM (R30, R33, R34, R37, R134, R151, R203). -/
def State.RunOk (s : State) : FsmState → Prop
  | .idle => True
  | .encRun => s.err = false ∧ (s.bufValid = true → s.Present s.bufCode.toNat) ∧ s.NoDuplicates
  | .decFirst => s.err = false ∧ s.Present s.prevCode.toNat ∧ s.nextCode = 256#17
  | .decRun => s.err = false ∧ s.Present s.prevCode.toNat ∧ (s.nextCode ≠ s.params.capacity → s.prevExt = 0)
  | .decFailed => s.err = true ∧ s.Present s.prevCode.toNat

variable {s t u : State} {i : Instr}

theorem inv_iff : s.Inv ↔ s.TableOk ∧ s.RecordOk ∧ s.RunOk s.fsm := by
  constructor
  · intro h
    refine ⟨⟨h.params_legal, h.store_wf, h.store_range, h.next_range, h.linked, h.width_eq⟩,
      ⟨h.err_iff, h.err_code_zero⟩, ?_⟩
    cases hf : s.fsm with
    | idle => trivial
    | encRun => exact ⟨h.running_clear (.inl hf), h.buffer_present hf, h.encoder_unique hf⟩
    | decFirst => exact ⟨h.running_clear (.inr (.inl hf)), h.previous_present (.inl hf), h.first_fresh hf⟩
    | decRun => exact ⟨h.running_clear (.inr (.inr hf)), h.previous_present (.inr (.inl hf)), h.extension_zero hf⟩
    | decFailed => exact ⟨h.failed_err hf, h.previous_present (.inr (.inr hf))⟩
  · rintro ⟨ht, ⟨hiff, hzero⟩, hr⟩
    have hr {f : FsmState} (hf : s.fsm = f) : s.RunOk f := hf ▸ hr
    exact {
      ht with
      prefix_lt := ht.linked
      buffer_present := fun hf => have ⟨_, hb, _⟩ := hr hf; hb
      encoder_unique := fun hf => have ⟨_, _, hu⟩ := hr hf; hu
      previous_present := fun
        | .inl hf => have ⟨_, hp, _⟩ := hr hf; hp
        | .inr (.inl hf) => have ⟨_, hp, _⟩ := hr hf; hp
        | .inr (.inr hf) => have ⟨_, hp⟩ := hr hf; hp
      extension_zero := fun hf => have ⟨_, _, hz⟩ := hr hf; hz
      first_fresh := fun hf => have ⟨_, _, hn⟩ := hr hf; hn
      err_iff := hiff
      err_code_zero := hzero
      failed_err := fun hf => have ⟨he, _⟩ := hr hf; he
      running_clear := fun
        | .inl hf => have ⟨he, _⟩ := hr hf; he
        | .inr (.inl hf) => have ⟨he, _⟩ := hr hf; he
        | .inr (.inr hf) => have ⟨he, _⟩ := hr hf; he }

/-- The invariant of a state whose FSM state is known. -/
theorem inv_of_fsm {f : FsmState} (hf : s.fsm = f) (ht : s.TableOk) (hrec : s.RecordOk) (hr : s.RunOk f) : s.Inv :=
  inv_iff.mpr ⟨ht, hrec, hf ▸ hr⟩

/-- The invariant says nothing of the host's side of the block. -/
theorem State.Inv.streams (h : s.Inv) (ins : List HostEvent) (outs : List Response) (n : Nat) :
    State.Inv { s with input := ins, output := outs, freeIndex := n } :=
  have ⟨ht, hrec, hrun⟩ := inv_iff.mp h
  inv_iff.mpr ⟨ht, hrec, hrun⟩

/-! ### The table: reset and insertion -/

/-- The seeds alone, over a store whose slots may keep their bits (R42, R100). -/
theorem tableInv_seeds {p : Params} {m : Memory} (hp : p.Legal) (hm : Memory.wf m)
    (hr : ∀ x ∈ m, Config.seedCount ≤ x.1 ∧ x.1 < p.capacity.toNat) : TableInv p m 256#17 9#5 where
  params_legal := hp
  store_wf := hm
  store_range := hr
  next_range := ⟨le_rfl, hp.1⟩
  linked _ h1 h2 := absurd h2 (Nat.not_lt.mpr h1)
  width_eq := (min_eq_right hp.2.2.1).symm

theorem tableReset_tableOk (h : s.TableOk) : (tableReset s).TableOk :=
  tableInv_seeds h.params_legal h.store_wf h.store_range

/-- The width after an insertion, as a number: it does not wrap, since `MAX_WIDTH` is at most 16. -/
theorem insertEntry_curWidth_toNat (hp : s.params.Legal) (hc : s.nextCode.toNat < s.params.capacity.toNat) (p : Code)
    (b : Byte) : (insertEntry s p b).1.curWidth.toNat =
      if 2 ^ s.curWidth.toNat ≤ s.nextCode.toNat + 1 ∧ s.curWidth.toNat < s.params.maxWidth.toNat then
        s.curWidth.toNat + 1
      else s.curWidth.toNat := by
  rw [insertEntry_curWidth hc, nextCode_succ_toNat hc]
  obtain ⟨-, -, -, hmax⟩ := hp
  split
  · simp; omega
  · rfl

/-- An insertion over a present code keeps the clauses on the table, below capacity and on a frozen table. -/
theorem insertEntry_tableOk (h : s.TableOk) {p : Code} (hp : s.Present p.toNat) (b : Byte) :
    (insertEntry s p b).1.TableOk := by
  by_cases hc : s.nextCode.toNat < s.params.capacity.toNat
  · obtain ⟨hmin, -⟩ := h.next_range
    exact {
      params_legal := by rw [insertEntry_params]; exact h.params_legal
      store_wf := by rw [insertEntry_entries hc]; exact Memory.write_wf h.store_wf _ _
      store_range := by
        rw [insertEntry_entries hc, insertEntry_params]
        intro x hx
        obtain rfl | hx := Memory.mem_write hx
        · exact ⟨hmin, hc⟩
        · exact h.store_range x hx
      next_range := by rw [insertEntry_nextCode_toNat hc, insertEntry_params]; omega
      linked := insertEntry_linked h.linked hc hp b
      width_eq := by
        rw [insertEntry_curWidth_toNat h.params_legal hc, insertEntry_params, insertEntry_nextCode_toNat hc]
        exact width_track (by omega) h.width_eq }
  · rw [insertEntry_frozen (Nat.not_lt.mp hc)]
    exact h

/-- A code that was present stays so at an insertion. -/
theorem insertEntry_present {k : Nat} (hk : s.Present k) (p : Code) (b : Byte) :
    (insertEntry s p b).1.Present k := by
  have hk' : k < s.nextCode.toNat := hk
  show k < (insertEntry s p b).1.nextCode.toNat
  have := insertEntry_nextCode_same_or_succ s p b
  omega

/-! ### Duplicates (R30) -/

/-- A string determines its seed. -/
theorem seeds_noDuplicates (hn : s.nextCode = 256#17) : s.NoDuplicates := by
  intro j k hj hk h
  have hj' : j < 256 := by simpa [State.Present, hn] using hj
  have hk' : k < 256 := by simpa [State.Present, hn] using hk
  rw [strOf_seed hj' hj, strOf_seed hk' hk] at h
  have := congrArg BitVec.toNat (List.head_eq_of_cons_eq (Option.some.inj h))
  simpa [Nat.mod_eq_of_lt hj', Nat.mod_eq_of_lt hk'] using this

/-- Learning a string that no code holds makes no duplicate (R30). -/
theorem insertEntry_noDuplicates (hu : s.NoDuplicates) (ht : s.TableOk) {p : Code} {b : Byte} {x : List Byte}
    (hp : strOf s p.toNat = some x) (hnew : findCode s (x ++ [b]) = none) : (insertEntry s p b).1.NoDuplicates := by
  by_cases hc : s.nextCode.toNat < s.params.capacity.toNat
  case neg =>
    rw [insertEntry_frozen (Nat.not_lt.mp hc)]
    exact hu
  have hfresh := findCode_eq_none.mp hnew
  have hlast := strOf_insertEntry_new ht.linked ht.next_range.1 hc (present_of_strOf hp) b hp
  have hold : ∀ k, s.Present k → strOf (insertEntry s p b).1 k = strOf s k :=
    fun k => strOf_insertEntry_old ht.linked p b
  have hcase : ∀ k, (insertEntry s p b).1.Present k → k = s.nextCode.toNat ∨ s.Present k := by
    intro k hk
    have hk' : k < (insertEntry s p b).1.nextCode.toNat := hk
    rw [insertEntry_nextCode_toNat hc] at hk'
    show _ ∨ k < s.nextCode.toNat
    omega
  intro j k hj hk h
  obtain rfl | hj := hcase j hj <;> obtain rfl | hk := hcase k hk
  · rfl
  · rw [hlast, hold k hk] at h
    exact absurd h.symm (hfresh k)
  · rw [hlast, hold j hj] at h
    exact absurd h (hfresh j)
  · rw [hold j hj, hold k hk] at h
    exact hu j k hj hk h

/-- In an encode run a candidate that is not found extends a buffer that is not empty: every single byte is found. -/
theorem bufStr_of_findCode_none (ht : s.TableOk) {b : Byte} {buf : List Byte} (hbuf : bufStr s = some buf)
    (hnew : findCode s (buf ++ [b]) = none) : s.bufValid = true ∧ strOf s s.bufCode.toNat = some buf := by
  cases hv : s.bufValid with
  | true => exact ⟨rfl, by simpa [bufStr, hv] using hbuf⟩
  | false =>
    obtain rfl : [] = buf := by simpa [bufStr, hv] using hbuf
    have hseed := strOf_seed (s := s) b.isLt (seed_present ht.next_range.1 b.isLt)
    rw [BitVec.ofNat_toNat, BitVec.setWidth_eq] at hseed
    exact absurd hseed (findCode_eq_none.mp hnew b.toNat)

/-! ### The commands -/

theorem clearError_recordOk : (clearError s).RecordOk := ⟨by simp, fun _ => rfl⟩

theorem insertEntry_recordOk (h : s.RecordOk) (p : Code) (b : Byte) : (insertEntry s p b).1.RecordOk := by
  simpa [State.RecordOk] using h

/-- Whatever a command writes, it keeps the invariant. -/
theorem Writes.inv (h : s.Inv) (hw : Writes i s u) : u.Inv := by
  obtain ⟨ht, hrec, hrun⟩ := inv_iff.mp h
  have hreset := tableReset_tableOk ht
  have hseed {k : Nat} (hk : k < 256) : s.Present k := seed_present ht.next_range.1 hk
  cases hw with
  | nothing => exact h
  | tblReset => exact inv_of_fsm rfl hreset clearError_recordOk trivial
  | encStart =>
    exact inv_of_fsm rfl hreset clearError_recordOk ⟨rfl, by simp, seeds_noDuplicates rfl⟩
  | decStart => exact inv_of_fsm rfl hreset clearError_recordOk ⟨rfl, by simp, rfl⟩
  | learn hf hp =>
    exact inv_of_fsm ((insertEntry_fsm ..).trans hf) (insertEntry_tableOk ht hp _) (insertEntry_recordOk hrec _ _) trivial
  | extend hf hbuf hk =>
    obtain ⟨herr, -, huniq⟩ := hf ▸ hrun
    obtain ⟨hp, -, -⟩ := findCode_eq_some.mp hk
    exact inv_of_fsm hf ht hrec ⟨herr, fun _ => Nat.lt_of_le_of_lt (Nat.mod_le _ _) hp, huniq⟩
  | @emit _ b buf hf hbuf hnew =>
    obtain ⟨herr, hpres, huniq⟩ := hf ▸ hrun
    obtain ⟨hv, hstr⟩ := bufStr_of_findCode_none ht hbuf hnew
    have hb : s.Present (b.setWidth 16).toNat := hseed (by simp; omega)
    exact inv_of_fsm ((insertEntry_fsm ..).trans hf) (insertEntry_tableOk ht (hpres hv) b) (insertEntry_recordOk hrec _ _)
      ⟨(insertEntry_err ..).trans herr, fun _ => insertEntry_present hb _ _, insertEntry_noDuplicates huniq ht hstr hnew⟩
  | flush hf => exact inv_of_fsm rfl ht hrec trivial
  | first hf hc =>
    obtain ⟨herr, -, -⟩ := hf ▸ hrun
    exact inv_of_fsm rfl ht hrec ⟨herr, hseed hc, fun _ => rfl⟩
  | @take _ c x hf hc =>
    obtain ⟨herr, hprev, -⟩ := hf ▸ hrun
    have hp : (insertEntry s s.prevCode x).1.Present c.toNat := by
      obtain hc | ⟨hn, hc⟩ := hc
      · exact insertEntry_present hc _ _
      · show _ < _
        rw [insertEntry_nextCode_toNat hc]
        omega
    exact inv_of_fsm ((insertEntry_fsm ..).trans hf) (insertEntry_tableOk ht hprev x) (insertEntry_recordOk hrec _ _)
      ⟨(insertEntry_err ..).trans herr, hp, fun _ => rfl⟩
  | count hf hc =>
    obtain ⟨herr, hprev, -⟩ := hf ▸ hrun
    have hfull : s.nextCode = s.params.capacity := BitVec.eq_of_toNat_eq (le_antisymm ht.next_range.2 hc)
    exact inv_of_fsm hf ht hrec ⟨herr, hprev, fun hne => absurd hfull hne⟩
  | @fail _ c cause hf hc =>
    have hprev : s.Present s.prevCode.toNat := h.previous_present (by tauto)
    exact inv_of_fsm rfl ht ⟨by simp [hc.1], fun hz => by simp [hc.1, hc.2] at hz⟩ ⟨rfl, hprev⟩
  | endEmpty => exact inv_of_fsm rfl ht ⟨by simp, fun _ => rfl⟩ trivial
  | endRun => exact inv_of_fsm rfl ht hrec trivial

/-! ### The host's events -/

theorem Completes.inv (h : s.Inv) (hc : Completes i s t) : t.Inv := by
  obtain ⟨u, r, hw, rfl⟩ := hc
  exact (hw.inv h).streams u.input (u.output ++ [r]) u.freeIndex

theorem hardwareReset_inv (hp : s.params.Legal) : (hardwareReset s).Inv :=
  inv_of_fsm rfl (tableInv_seeds hp List.Pairwise.nil (by simp)) ⟨by simp, fun _ => rfl⟩ trivial

theorem performWord_inv {w : CommandWord} (h : s.Inv) (ht : performWord w s = .next t) : t.Inv := by
  unfold performWord at ht
  split at ht
  · exact (exec_completes ht).inv h
  · obtain rfl := cmdError_eq_next.mp ht
    exact h.streams _ _ _

theorem resetInFlight_inv {w : CommandWord} (h : s.Inv) (ht : resetInFlight w s = .next t) : t.Inv := by
  have h' : State.Inv { s with freeIndex := s.freeIndex + 1 } := h.streams s.input s.output _
  simp only [resetInFlight] at ht
  split at ht
  · split at ht <;> cases ht
    next hw => exact hardwareReset_inv (performWord_inv h' hw).params_legal
  · cases ht
    exact hardwareReset_inv h'.params_legal

theorem takeEvent_inv {e : HostEvent} (h : s.Inv) (ht : takeEvent e s = .next t) : t.Inv := by
  cases e with
  | command w => exact performWord_inv h ht
  | reset => cases ht; exact hardwareReset_inv h.params_legal
  | resetInFlight w => exact resetInFlight_inv h ht

theorem takeNext_inv (h : s.Inv) (ht : takeNext s = .next t) : t.Inv := by
  unfold takeNext at ht
  split at ht
  · cases ht; exact h
  · exact takeEvent_inv (h.streams _ s.output s.freeIndex) ht

/-- With legal parameters a step takes the next event (R10). -/
theorem step_of_legal (hp : s.params.Legal) : step s = takeNext s := if_pos hp

end Invariant

/-- Settles O16: every event keeps the invariant, and the only other step is the idle one. -/
theorem invariantIsKeptByEveryStep : Obligations.InvariantIsKeptByEveryStep := by
  intro s t h ht
  rw [step_of_legal h.params_legal] at ht
  exact takeNext_inv h ht

/-- Settles O15: the state after reset is its own hardware reset. -/
theorem invariantHoldsAtReset : Obligations.InvariantHoldsAtReset :=
  ⟨hardwareReset_inv (s := State.reset) (by decide), fun _ => hardwareReset_inv⟩

/-- Settles O11: the step is `hardwareReset` of the state with the event taken. -/
theorem hardwareResetKeepsTheStreams : Obligations.HardwareResetKeepsTheStreams := by
  intro s rest hp hi
  refine ⟨hardwareReset { s with input := rest }, ?_, rfl, rfl, rfl, rfl⟩
  rw [step_of_legal hp, takeNext, hi]
  rfl

end Sys2Proof.Machine

/-! The step and its commands (20_memory.md §4). -/

namespace Sys2Proof

/-- The decoder reads a command back from its word (R74, R75). -/
theorem decode_encode {i : Instr} (h : i.WellFormed = true) : decode (encode i) = .ok i := by
  rw [decode, encode, fieldsOf_packFields]
  cases i with
  | regRead r =>
    have hr : r.toNat ≤ 9 := by simpa [Instr.WellFormed] using h
    simp [encodeFields, decodeFields, hr]
  | tblReset | tblLookup | tblLookupPrefix | tblLearn | tblResolve | encStart | encByte | encFlush | decStart | decCode
  | decEnd => rfl

end Sys2Proof

namespace Sys2Proof.Machine

section Step

variable {s : State}

/-- A step with a command word waiting performs that word (R58, R62). -/
theorem step_command {w : CommandWord} {rest : List HostEvent} (hp : s.params.Legal)
    (hi : s.input = .command w :: rest) : step s = performWord w { s with input := rest } := by
  rw [step_of_legal hp, takeNext, hi]
  rfl

theorem performWord_of_decode {w : CommandWord} {i : Instr} (h : decode w = .ok i) : performWord w s = exec i s := by
  simp [performWord, h]

/-- A step with no event waiting leaves the state (log entry 3). -/
theorem step_idle (hp : s.params.Legal) (hi : s.input = []) : step s = .next s := by
  rw [step_of_legal hp, takeNext, hi]

/-- A command word is all 32 bits of its number. -/
theorem withFetchWord_encode (i : Instr) : s.withFetchWord 32 (encode i).toNat = issueFirst s (encode i) := by
  rw [State.withFetchWord, Nat.mod_eq_of_lt (encode i).isLt, BitVec.ofNat_toNat, BitVec.setWidth_eq]

/-- A word issued ahead of the others is the one the next step performs (log entry 3). -/
theorem step_issueFirst (hp : s.params.Legal) (w : CommandWord) : step (issueFirst s w) = performWord w s :=
  step_command (s := issueFirst s w) hp rfl

end Step

/-- Settles O7: the oldest word is performed, and performing the word of a command is its meaning. -/
theorem stepRunsTheDecodedCommand : Obligations.StepRunsTheDecodedCommand := by
  refine ⟨fun s w rest i hp hi hd => ?_, fun s i hp hw => ?_⟩
  · rw [step_command hp hi, performWord_of_decode hd]
  · rw [withFetchWord_encode, step_issueFirst hp, performWord_of_decode (decode_encode hw)]

/-- Settles O8: with no event the step is the model's idle step. -/
theorem blockWithoutACommandWaits : Obligations.BlockWithoutACommandWaits := fun _ => step_idle

/-! The reads (R61) and the table resets. -/

section Reads

variable {i : Instr} {s t : State}

/-- A meaning that writes nothing but its response, which holds no code and is the same when it is asked again. -/
def Repeats (f : State → Result) (s : State) : Prop :=
  ∀ t, f s = .next t → ∃ st v d, t = respond s st v d [] ∧ f t = finish t st v d []

theorem lookupResponse_repeats {str : List Byte} : Repeats (lookupResponse · str) s := by
  intro t h
  simp only [lookupResponse] at h
  split at h
  all_goals
    next hk =>
      obtain rfl := finish_eq_next.mp h
      exact ⟨_, _, _, rfl, by simp only [lookupResponse, findCode_respond, hk]⟩

/-- The candidate is formed from the table, which no response changes. -/
theorem execTblLookupPrefix_repeats {p : Code} {b : Byte} : Repeats (execTblLookupPrefix p b) s := by
  intro t h
  unfold execTblLookupPrefix at h
  split at h
  case isTrue hp =>
    obtain ⟨str, hstr, h⟩ := withString_eq_next.mp h
    obtain ⟨st, v, d, rfl, ha⟩ := lookupResponse_repeats t h
    have hstr' : candidate (respond s st v d []) p b = some str := by simpa [candidate] using hstr
    refine ⟨st, v, d, rfl, ?_⟩
    rw [execTblLookupPrefix, if_pos (by simpa using hp), hstr']
    exact ha
  case isFalse hp =>
    obtain rfl := cmdError_eq_next.mp h
    exact ⟨_, _, _, rfl, if_neg (by simpa using hp)⟩

theorem execTblResolve_repeats {c : Code} : Repeats (execTblResolve c) s := by
  intro t h
  unfold execTblResolve at h
  split at h
  case isTrue hp =>
    obtain ⟨str, hstr, h⟩ := withString_eq_next.mp h
    obtain rfl := finish_eq_next.mp h
    refine ⟨_, _, _, rfl, ?_⟩
    rw [execTblResolve, if_pos (by simpa using hp), strOf_respond, hstr]
    rfl
  case isFalse hp =>
    obtain rfl := finish_eq_next.mp h
    exact ⟨_, _, _, rfl, if_neg (by simpa using hp)⟩

/-- No register holds a response (R181). -/
theorem regValue_respond (st : Status) (v : Value) (d : List Byte) (c : List Code) (r : Nat) :
    regValue (respond s st v d c) r = regValue s r := rfl

theorem execRegRead_repeats {r : Byte} : Repeats (execRegRead r) s := by
  intro t h
  unfold execRegRead at h
  split at h
  case h_1 v hv =>
    obtain rfl := finish_eq_next.mp h
    exact ⟨_, _, _, rfl, by simp only [execRegRead, regValue_respond, hv]⟩
  case h_2 hv =>
    obtain rfl := cmdError_eq_next.mp h
    exact ⟨_, _, _, rfl, by simp only [execRegRead, regValue_respond, hv, cmdError]; rfl⟩

/-- The four reads (R61). -/
theorem isRead_repeats (hi : isRead i = true) : Repeats (exec i) s := by
  cases i with
  | tblLookup b => exact lookupResponse_repeats
  | tblLookupPrefix p b => exact execTblLookupPrefix_repeats
  | tblResolve c => exact execTblResolve_repeats
  | regRead r => exact execRegRead_repeats
  | tblReset | tblLearn | encStart | encByte | encFlush | decStart | decCode | decEnd => cases hi

/-- Each table reset writes constants alone (R101, R131, R151). -/
theorem tableReset_idempotent {u : State} (hi : IsTableReset i) (ht : exec i s = .next t) (hu : exec i t = .next u) :
    u = { t with output := u.output } := by
  obtain rfl | rfl | rfl := hi
  all_goals
    obtain rfl := finish_eq_next.mp ht
    obtain rfl := finish_eq_next.mp hu
    rfl

end Reads

/-- Settles O48: each read repeats its response, and each table reset is idempotent. -/
theorem readsArePureAndResetsIdempotent : Obligations.ReadsArePureAndResetsIdempotent := by
  refine ⟨fun i s t h hi => ?_, fun i s t u => tableReset_idempotent⟩
  have hread : isRead i = true := by
    obtain ⟨b, rfl⟩ | ⟨p, b, rfl⟩ | ⟨c, rfl⟩ | ⟨r, rfl⟩ := hi <;> rfl
  obtain ⟨st, v, d, rfl, hagain⟩ := isRead_repeats hread t h
  exact ⟨rfl, _, rfl, hagain⟩

/-! The codes a command emits (R52, R139). -/

section Emitted

variable {i : Instr} {s : State} {P : Code → Prop}

/-- Every code in the response that a result adds to those of `s` satisfies `P`. -/
def EmitsOnly (P : Code → Prop) (s : State) (res : Result) : Prop :=
  ∀ t r, res = .next t → t.output = s.output ++ [r] → ∀ c ∈ r.codes, P c

theorem finish_emitsOnly {u : State} {st : Status} {v : Value} {d : List Byte} {cs : List Code}
    (ho : u.output = s.output) (hcs : ∀ c ∈ cs, P c) : EmitsOnly P s (finish u st v d cs) := by
  intro t r ht hr
  obtain rfl := finish_eq_next.mp ht
  obtain rfl : _ = r := by simpa [ho] using hr
  exact hcs

/-- A response without codes. -/
theorem finish_emitsNone {u : State} {st : Status} {v : Value} {d : List Byte} (ho : u.output = s.output) :
    EmitsOnly P s (finish u st v d []) :=
  finish_emitsOnly ho (by simp)

theorem guarded_emitsOnly {g : Guarded} {body : Result} (h : legalIn g s.fsm = true → EmitsOnly P s body) :
    EmitsOnly P s (guarded g s body) := by
  unfold guarded
  split
  case isTrue hl => exact h hl
  case isFalse => exact finish_emitsNone rfl

/-- A string that is not defined gets no response. -/
theorem withString_emitsOnly {k : Nat} {str : Option (List Byte)} {body : List Byte → Result}
    (h : ∀ x, str = some x → EmitsOnly P s (body x)) : EmitsOnly P s (withString k str body) := by
  cases str with
  | none => exact nofun
  | some x => exact h x rfl

theorem Repeats.emitsOnly {f : State → Result} (h : Repeats f s) : EmitsOnly P s (f s) := by
  intro t r ht
  obtain ⟨st, v, d, rfl, -⟩ := h t ht
  exact finish_emitsNone rfl _ r rfl

theorem execTblLearn_emitsOnly {p : Code} {b : Byte} : EmitsOnly P s (execTblLearn p b s) := by
  have ho : (insertEntry s p b).1.output = s.output := insertEntry_output s p b
  refine guarded_emitsOnly fun _ => ?_
  split
  · split <;> next hins => rw [hins] at ho; exact finish_emitsNone ho
  · exact finish_emitsNone rfl

theorem decodeEntry_emitsOnly {c : Code} {repair : Bool} {entry : List Byte} :
    EmitsOnly P s (decodeEntry s c repair entry) := by
  cases entry with
  | nil => exact nofun
  | cons x xs =>
    simp only [decodeEntry]
    split <;> exact finish_emitsNone (insertEntry_output s _ x)

/-- A present code, the next code with its repair, and an unknown code (R152, R153, R162). -/
theorem decodeNext_emitsOnly {c : Code} : EmitsOnly P s (decodeNext s c) := by
  unfold decodeNext
  split
  · exact withString_emitsOnly fun _ _ => decodeEntry_emitsOnly
  · split
    · split
      · exact finish_emitsNone rfl
      · exact withString_emitsOnly fun _ _ => decodeEntry_emitsOnly
    · exact finish_emitsNone rfl

theorem execDecCode_emitsOnly {c : Code} : EmitsOnly P s (execDecCode c s) := by
  refine guarded_emitsOnly fun _ => ?_
  split
  · exact finish_emitsNone rfl
  · unfold decodeFirst
    split <;> exact finish_emitsNone rfl
  · exact decodeNext_emitsOnly

theorem execDecEnd_emitsOnly : EmitsOnly P s (execDecEnd s) := by
  refine guarded_emitsOnly fun _ => ?_
  split <;> exact finish_emitsNone rfl

/-- `c` is the code of an encode run's match buffer, and the buffer is not empty. -/
def IsBufferCode (s : State) (c : Code) : Prop := s.fsm = .encRun ∧ s.bufValid = true ∧ c = s.bufCode

/-- Every seed is found (R29). -/
theorem findCode_seed_ne_none (hn : Config.seedCount ≤ s.nextCode.toNat) (b : Byte) : findCode s [b] ≠ none := by
  intro h
  refine findCode_eq_none.mp h b.toNat ?_
  simpa using strOf_seed b.isLt (seed_present hn b.isLt)

/-- `ENC_BYTE` emits only where the candidate is absent, and after an empty buffer the candidate is a seed (R132). -/
theorem execEncByte_emitsOnly (hn : Config.seedCount ≤ s.nextCode.toNat) {b : Byte} :
    EmitsOnly (IsBufferCode s) s (execEncByte b s) := by
  refine guarded_emitsOnly fun hl => withString_emitsOnly fun buf hbuf => ?_
  have hf := legalIn_encode.mp hl
  unfold encodeByte
  split
  case h_1 => exact finish_emitsNone rfl
  case h_2 hnew =>
    have hvalid : s.bufValid = true := by
      by_contra hv
      obtain rfl : [] = buf := by simpa [bufStr, hv] using hbuf
      exact findCode_seed_ne_none hn b hnew
    exact finish_emitsOnly (insertEntry_output s _ b) (by simp [IsBufferCode, hf, hvalid])

/-- `ENC_FLUSH` emits the buffer where there is one (R133). -/
theorem execEncFlush_emitsOnly : EmitsOnly (IsBufferCode s) s (execEncFlush s) := by
  refine guarded_emitsOnly fun hl => finish_emitsOnly rfl ?_
  have hf := legalIn_encode.mp hl
  cases hv : s.bufValid <;> simp [IsBufferCode, hf, hv]

/-- The only code a command ever emits is that of the match buffer (R81, R132, R133). -/
theorem exec_emitsOnly_bufferCode (hn : Config.seedCount ≤ s.nextCode.toNat) :
    EmitsOnly (IsBufferCode s) s (exec i s) := by
  cases i with
  | encByte b => exact execEncByte_emitsOnly hn
  | encFlush => exact execEncFlush_emitsOnly
  | tblLearn p b => exact execTblLearn_emitsOnly
  | decCode c => exact execDecCode_emitsOnly
  | decEnd => exact execDecEnd_emitsOnly
  | tblReset | encStart | decStart => exact finish_emitsNone rfl
  | tblLookup | tblLookupPrefix | tblResolve | regRead => exact (isRead_repeats rfl).emitsOnly

end Emitted

/-- Settles O32: the code of the match buffer is present, and present codes are below capacity. -/
theorem emittedCodesAreBelowCapacity : Obligations.EmittedCodesAreBelowCapacity := by
  rintro i s r t h ⟨ht, hr⟩ c hc
  obtain ⟨-, hcap⟩ := h.next_range
  obtain ⟨hf, hv, rfl⟩ := exec_emitsOnly_bufferCode h.next_range.1 t r ht hr c hc
  have hp : s.Present s.bufCode.toNat := h.buffer_present hf hv
  exact ⟨hp, Nat.lt_of_lt_of_le hp hcap⟩

/-! The wire (R53 to R56). -/

section Wire

/-- The high byte counts 256 (R53). -/
theorem toNat_high_low (c : Code) :
    c.toNat = 256 * (c.extractLsb' 8 8).toNat + (c.extractLsb' 0 8).toNat := by
  have := c.isLt
  simp only [BitVec.extractLsb'_toNat, Nat.shiftRight_eq_div_pow]
  omega

/-- The two bytes of a code word, put together again (R53). -/
theorem high_append_low (c : Code) : c.extractLsb' 8 8 ++ c.extractLsb' 0 8 = c := by
  rw [BitVec.extractLsb'_append_extractLsb'_eq_extractLsb' (by decide)]
  exact BitVec.extractLsb'_eq_self

@[simp] theorem serialise_cons (c : Code) (cs : List Code) :
    serialise (c :: cs) = c.extractLsb' 8 8 :: c.extractLsb' 0 8 :: serialise cs := rfl

theorem serialise_length (cs : List Code) : (serialise cs).length = 2 * cs.length := by
  induction cs with
  | nil => rfl
  | cons c cs ih => simp only [serialise_cons, List.length_cons, ih]; omega

theorem deserialise_serialise (cs : List Code) : deserialise (serialise cs) = some cs := by
  induction cs with
  | nil => rfl
  | cons c cs ih => simp only [serialise_cons, deserialise, ih, high_append_low, Option.map_some]

/-- A byte without a partner is all that the deserialiser rejects (R56). -/
theorem deserialise_eq_none (bs : List Byte) : deserialise bs = none ↔ bs.length % 2 = 1 := by
  induction bs using deserialise.induct with
  | case1 => simp [deserialise]
  | case2 => simp [deserialise]
  | case3 x y zs ih => simp [deserialise, ih, Nat.add_assoc]

end Wire

/-- Settles O58: length and round trip by induction on the stream, oddness along the recursion of the deserialiser. -/
theorem wireCarriesEveryCodeStream : Obligations.WireCarriesEveryCodeStream :=
  ⟨fun cs => ⟨serialise_length cs, deserialise_serialise cs⟩,
    fun cs c => ⟨_, _, toNat_high_low c, serialise_cons c cs⟩, deserialise_eq_none⟩

end Sys2Proof.Machine

/-! The words of the commands (30_encoding.md). -/

namespace Sys2Proof.Machine

section Words

variable {f : Fields} {i : Instr} {w : CommandWord}

/-- A check of the decoder answers a command only where it passes. -/
theorem check_eq_ok {α : Type} {c : Prop} [Decidable c] {x : Except Reject α} {e : Reject} {a : α} :
    (if c then x else .error e) = .ok a ↔ c ∧ x = .ok a := by
  split <;> simp [*]

/-- A check of the decoder rejects where it fails, and elsewhere where the rest of the decoder does. -/
theorem check_rejects {α : Type} {c : Prop} [Decidable c] {x : Except Reject α} {e : Reject} :
    (∃ r, (if c then x else .error e) = .error r) ↔ (c → ∃ r, x = .error r) := by
  split <;> simp [*]

theorem encodeFields_of_decodeFields (h : decodeFields f = .ok i) : encodeFields i = f ∧ i.WellFormed = true := by
  obtain ⟨op, rsv, p, code, byte⟩ := f
  simp only [decodeFields] at h
  split at h
  case h_12 => cases h
  case h_2 hop =>
    rw [check_eq_ok] at h
    obtain ⟨hrsv, h⟩ := h
    split at h
    case isTrue hp =>
      cases h
      simp [encodeFields, Instr.WellFormed, BitVec.toNat_eq, hop, hrsv, hp]
    case isFalse hp =>
      simp only [check_eq_ok, Except.ok.injEq] at h
      obtain ⟨hcode, rfl⟩ := h
      have hp0 : p = 0 := by bv_omega
      simp [encodeFields, Instr.WellFormed, BitVec.toNat_eq, hop, hrsv, hp0, hcode]
  case h_11 hop =>
    simp only [check_eq_ok, Except.ok.injEq] at h
    obtain ⟨hrsv, hfields, hr, rfl⟩ := h
    simp [encodeFields, Instr.WellFormed, BitVec.toNat_eq, hop, hrsv, hfields, hr]
  all_goals
    next hop =>
      simp only [check_eq_ok, Except.ok.injEq] at h
      obtain ⟨hrsv, hfields, rfl⟩ := h
      simp [encodeFields, Instr.WellFormed, BitVec.toNat_eq, hop, hrsv, hfields]

/-- Where the decoder answers a command in one case, only the other case can reject. -/
theorem answer_rejects {α : Type} {c : Prop} [Decidable c] {x : Except Reject α} {a : α} :
    (∃ r, (if c then .ok a else x) = .error r) ↔ ¬ c ∧ ∃ r, x = .error r := by
  split <;> simp [*]

/-- `IllegalWord` speaks of a word's number, and each of its terms is the number of one field (R71). -/
theorem decode_rejects : (∃ r, decode w = .error r) ↔ IllegalWord w := by
  obtain ⟨hop, hrsv, hp, hcode, hbyte⟩ := fieldsOf_toNat w
  simp only [IllegalWord, decode, ← hop, ← hrsv, ← hp, ← hcode, ← hbyte]
  clear hop hrsv hp hcode hbyte
  generalize fieldsOf w = f
  have hop16 := f.op.isLt
  have hp2 := f.p.isLt
  simp only [decodeFields]
  split
  case h_12 =>
    simp only [Except.error.injEq, exists_eq', true_iff]
    simp only [imp_false] at *
    omega
  all_goals
    simp only [check_rejects, answer_rejects, reduceCtorEq, exists_false, imp_false, BitVec.toNat_eq,
      BitVec.ofNat_eq_ofNat, BitVec.toNat_ofNat]
    omega

end Words

/-- Settles O3, which is the decoder's own law. -/
theorem decodeOfEncodeIsTheCommand : Obligations.DecodeOfEncodeIsTheCommand := fun _ => decode_encode

/-- Settles O4: the fields of the word are those of the command, and the five fields cover the word. -/
theorem encodeOfDecodeIsTheWord : Obligations.EncodeOfDecodeIsTheWord := by
  intro w i h
  obtain ⟨hfields, hwf⟩ := encodeFields_of_decodeFields h
  exact ⟨by rw [encode, hfields, packFields_fieldsOf], hwf⟩

/-- Settles O5, opcode by opcode. -/
theorem rejectedWordsAreTheIllegalOnes : Obligations.RejectedWordsAreTheIllegalOnes := fun _ => decode_rejects

/-- Settles O1: each word is evaluated. -/
theorem decodesWordsOfTheSpec : Obligations.DecodesWordsOfTheSpec :=
  ⟨rfl, rfl, rfl, rfl, rfl, rfl, rfl, rfl, rfl, rfl, rfl, rfl⟩

/-- Settles O2: the words without operands are evaluated, and the others are read field by field. -/
theorem encodingsOfEveryOpcode : Obligations.EncodingsOfEveryOpcode := by
  refine ⟨rfl, ?_, ?_, ?_, ?_, rfl, ?_, rfl, rfl, ?_, rfl, ?_⟩ <;> intros <;>
    simp [encode, packFields_toNat, encodeFields]

end Sys2Proof.Machine

/-! Every command word gets one response (R77), and what it holds (R80). -/

namespace Sys2Proof.Machine

section Safe

variable {i : Instr} {s : State}

/-- Every string that a command may need is defined: the table is linked, and the codes of the match buffer and of the
previous entry are present in the runs that use them (R23, R33, R134). -/
structure State.StringsDefined (s : State) : Prop where
  linked : Linked s.entries s.nextCode.toNat
  buffer : s.fsm = .encRun → s.bufValid = true → s.Present s.bufCode.toNat
  previous : s.fsm = .decRun → s.Present s.prevCode.toNat

theorem State.Inv.stringsDefined (h : s.Inv) : s.StringsDefined where
  linked := h.linked
  buffer := h.buffer_present
  previous hf := h.previous_present (.inr (.inl hf))

theorem finish_safe {st : Status} {v : Value} {d : List Byte} {c : List Code} : Safe (finish s st v d c) := ⟨_, rfl⟩

theorem guarded_safe {g : Guarded} {body : Result} (h : legalIn g s.fsm = true → Safe body) :
    Safe (guarded g s body) := by
  unfold guarded
  split
  case isTrue hl => exact h hl
  case isFalse => exact finish_safe

theorem withString_safe {k : Nat} {str : Option (List Byte)} {body : List Byte → Result} {x : List Byte}
    (hx : str = some x) (h : Safe (body x)) : Safe (withString k str body) := by
  rw [hx]
  exact h

theorem lookupResponse_safe {str : List Byte} : Safe (lookupResponse s str) := by
  unfold lookupResponse
  split <;> exact finish_safe

theorem encodeByte_safe {b : Byte} {buffer : List Byte} : Safe (encodeByte s b buffer) := by
  unfold encodeByte
  split <;> exact finish_safe

theorem decodeFirst_safe {c : Code} : Safe (decodeFirst s c) := by
  unfold decodeFirst
  split <;> exact finish_safe

theorem decodeEntry_safe {c : Code} {repair : Bool} {x : Byte} {y : List Byte} :
    Safe (decodeEntry s c repair (x :: y)) := by
  simp only [decodeEntry]
  split <;> exact finish_safe

/-- The strings that `DEC_CODE` needs are those of the code, and of the previous entry in a repair (R152, R153). -/
theorem decodeNext_safe (hl : Linked s.entries s.nextCode.toNat) (hp : s.Present s.prevCode.toNat) {c : Code} :
    Safe (decodeNext s c) := by
  unfold decodeNext
  split
  case isTrue hc =>
    obtain ⟨x, y, hxy, -⟩ := firstOf_defined hl (by simpa using hc)
    exact withString_safe hxy decodeEntry_safe
  case isFalse =>
    split
    · split
      · exact finish_safe
      · obtain ⟨x, y, -, -, -, hentry⟩ := repairEntry_defined hl hp
        exact withString_safe hentry decodeEntry_safe
    · exact finish_safe

theorem execTblLookupPrefix_safe (hl : Linked s.entries s.nextCode.toNat) {p : Code} {b : Byte} :
    Safe (execTblLookupPrefix p b s) := by
  unfold execTblLookupPrefix
  split
  case isTrue hp =>
    obtain ⟨x, hx, -⟩ := strOf_defined hl (by simpa using hp)
    exact withString_safe (x := x ++ [b]) (by simp [candidate, hx]) lookupResponse_safe
  case isFalse => exact finish_safe

theorem execTblLearn_safe {p : Code} {b : Byte} : Safe (execTblLearn p b s) := by
  refine guarded_safe fun _ => ?_
  split
  · split <;> exact finish_safe
  · exact finish_safe

theorem execTblResolve_safe (hl : Linked s.entries s.nextCode.toNat) {c : Code} : Safe (execTblResolve c s) := by
  unfold execTblResolve
  split
  case isTrue hc =>
    obtain ⟨x, hx, -⟩ := strOf_defined hl (by simpa using hc)
    exact withString_safe hx finish_safe
  case isFalse => exact finish_safe

theorem execEncByte_safe (h : s.StringsDefined) {b : Byte} : Safe (execEncByte b s) := by
  refine guarded_safe fun hl => ?_
  obtain ⟨x, hx, -⟩ := bufStr_defined h.linked (h.buffer (legalIn_encode.mp hl))
  exact withString_safe hx encodeByte_safe

theorem execDecCode_safe (h : s.StringsDefined) {c : Code} : Safe (execDecCode c s) := by
  refine guarded_safe fun hl => ?_
  cases hf : s.fsm <;> simp only [hf, legalIn, Bool.false_eq_true] at hl ⊢
  case decFirst => exact decodeFirst_safe
  case decRun => exact decodeNext_safe h.linked (h.previous hf)
  case decFailed => exact finish_safe

theorem execDecEnd_safe : Safe (execDecEnd s) := by
  refine guarded_safe fun _ => ?_
  split <;> exact finish_safe

theorem execRegRead_safe {r : Byte} : Safe (execRegRead r s) := by
  unfold execRegRead
  split <;> exact finish_safe

/-- A read needs a linked table alone (R24, R61). -/
theorem isRead_safe (hi : isRead i = true) (hl : Linked s.entries s.nextCode.toNat) : Safe (exec i s) := by
  cases i with
  | tblLookup b => exact lookupResponse_safe
  | tblLookupPrefix p b => exact execTblLookupPrefix_safe hl
  | tblResolve c => exact execTblResolve_safe hl
  | regRead r => exact execRegRead_safe
  | tblReset | tblLearn | encStart | encByte | encFlush | decStart | decCode | decEnd => cases hi

/-- No command stops where every string it may need is defined. -/
theorem exec_safe (h : s.StringsDefined) : Safe (exec i s) := by
  cases i with
  | tblLookup | tblLookupPrefix | tblResolve | regRead => exact isRead_safe rfl h.linked
  | tblReset | encStart | decStart => exact finish_safe
  | tblLearn p b => exact execTblLearn_safe
  | encByte b => exact execEncByte_safe h
  | encFlush => exact guarded_safe fun _ => finish_safe
  | decCode c => exact execDecCode_safe h
  | decEnd => exact execDecEnd_safe

end Safe

section Response

variable {i : Instr} {s u : State}

/-- The response of a command, by its status; the failure a response reports is the recorded one (R78, R80). -/
inductive Answers (i : Instr) (cause : ErrCause) (code : Code) : Response → Prop where
  | performed {st : Status} {v : Value} {d : List Byte} {cs : List Code} (hst : st = .ok ∨ st = .notFound)
      (hcs : cs.length ≤ 1) : Answers i cause code { status := st, value := v, data := d, codes := cs }
  | failed : Answers i cause code
      { status := .invalidStream, value := invalidStreamValue cause code, data := [], codes := [] }
  | rejected {st : Status} (hst : st = .stateError ∨ st = .operandError) :
      Answers i cause code { status := st, value := 0, data := [], codes := [] }
  /-- A reserved register, which no command word names (R75, R180). -/
  | illegal {r : Byte} (hi : i = .regRead r) (hr : 9 < r.toNat) :
      Answers i cause code { status := .illegalCommand, value := 0, data := [], codes := [] }

/-- Every response that a result adds to those of `s` is one of `Answers`. -/
def AnswersOf (i : Instr) (s : State) (res : Result) : Prop :=
  ∀ t, res = .next t → ∃ r, t.output = s.output ++ [r] ∧ Answers i t.errCause t.errCode r

theorem finish_answersOf {st : Status} {v : Value} {d : List Byte} {cs : List Code} (ho : u.output = s.output)
    (h : Answers i u.errCause u.errCode { status := st, value := v, data := d, codes := cs }) :
    AnswersOf i s (finish u st v d cs) := by
  intro t ht
  obtain rfl := finish_eq_next.mp ht
  exact ⟨_, by rw [respond_output, ho], h⟩

/-- A command that is performed and emits nothing. -/
theorem finish_ok {v : Value} {d : List Byte} (ho : u.output = s.output) : AnswersOf i s (finish u .ok v d []) :=
  finish_answersOf ho (.performed (.inl rfl) (by simp))

theorem finish_notFound {v : Value} : AnswersOf i s (finish s .notFound v [] []) :=
  finish_answersOf rfl (.performed (.inr rfl) (by simp))

theorem cmdError_answersOf {st : Status} (hst : st = .stateError ∨ st = .operandError) :
    AnswersOf i s (cmdError s st) :=
  finish_answersOf rfl (.rejected hst)

theorem raiseInvalidStream_answersOf {cause : ErrCause} {code : Code} :
    AnswersOf i s (raiseInvalidStream s cause code) :=
  finish_answersOf rfl .failed

theorem guarded_answersOf {g : Guarded} {body : Result} (h : AnswersOf i s body) :
    AnswersOf i s (guarded g s body) := by
  unfold guarded
  split
  · exact h
  · exact cmdError_answersOf (.inl rfl)

/-- A string that is not defined gets no response. -/
theorem withString_answersOf {k : Nat} {str : Option (List Byte)} {body : List Byte → Result}
    (h : ∀ x, AnswersOf i s (body x)) : AnswersOf i s (withString k str body) := by
  cases str with
  | none => exact nofun
  | some x => exact h x

theorem lookupResponse_answersOf {str : List Byte} : AnswersOf i s (lookupResponse s str) := by
  unfold lookupResponse
  split
  · exact finish_notFound
  · exact finish_ok rfl

theorem execTblLookupPrefix_answersOf {p : Code} {b : Byte} : AnswersOf i s (execTblLookupPrefix p b s) := by
  unfold execTblLookupPrefix
  split
  · exact withString_answersOf fun _ => lookupResponse_answersOf
  · exact cmdError_answersOf (.inr rfl)

theorem execTblLearn_answersOf {p : Code} {b : Byte} : AnswersOf i s (execTblLearn p b s) := by
  have ho : (insertEntry s p b).1.output = s.output := insertEntry_output s p b
  refine guarded_answersOf ?_
  split
  · split <;> next hins => rw [hins] at ho; exact finish_ok ho
  · exact cmdError_answersOf (.inr rfl)

theorem execTblResolve_answersOf {c : Code} : AnswersOf i s (execTblResolve c s) := by
  unfold execTblResolve
  split
  · exact withString_answersOf fun _ => finish_ok rfl
  · exact finish_notFound

/-- Step 3 of `ENC_BYTE` emits the one code of the buffer (R132). -/
theorem execEncByte_answersOf {b : Byte} : AnswersOf i s (execEncByte b s) := by
  refine guarded_answersOf (withString_answersOf fun buf => ?_)
  unfold encodeByte
  split
  · exact finish_ok rfl
  · exact finish_answersOf (insertEntry_output s _ b) (.performed (.inl rfl) (by simp))

theorem execEncFlush_answersOf : AnswersOf i s (execEncFlush s) :=
  guarded_answersOf (finish_answersOf rfl (.performed (.inl rfl) (by split <;> simp)))

theorem decodeEntry_answersOf {c : Code} {repair : Bool} {entry : List Byte} :
    AnswersOf i s (decodeEntry s c repair entry) := by
  cases entry with
  | nil => exact nofun
  | cons x y =>
    simp only [decodeEntry]
    split <;> exact finish_ok (insertEntry_output s _ x)

/-- A present code, the next code with its repair, and an unknown code (R152, R153, R162). -/
theorem decodeNext_answersOf {c : Code} : AnswersOf i s (decodeNext s c) := by
  unfold decodeNext
  split
  · exact withString_answersOf fun _ => decodeEntry_answersOf
  · split
    · split
      · exact raiseInvalidStream_answersOf
      · exact withString_answersOf fun _ => decodeEntry_answersOf
    · exact raiseInvalidStream_answersOf

theorem execDecCode_answersOf {c : Code} : AnswersOf i s (execDecCode c s) := by
  refine guarded_answersOf ?_
  split
  · exact finish_answersOf rfl .failed
  · unfold decodeFirst
    split
    · exact finish_ok rfl
    · exact raiseInvalidStream_answersOf
  · exact decodeNext_answersOf

theorem execDecEnd_answersOf : AnswersOf i s (execDecEnd s) := by
  refine guarded_answersOf ?_
  split
  · exact finish_answersOf rfl .failed
  · exact finish_answersOf rfl .failed
  · exact finish_ok rfl

/-- The register map ends at index 9 (R181). -/
theorem regValue_eq_none {r : Nat} : regValue s r = none ↔ 9 < r := by
  constructor
  · intro h
    by_contra hr
    interval_cases r <;> cases h
  · intro hr
    obtain ⟨k, rfl⟩ := Nat.exists_eq_add_of_le' hr
    rfl

theorem execRegRead_answersOf {r : Byte} : AnswersOf (.regRead r) s (execRegRead r s) := by
  unfold execRegRead
  split
  case h_1 => exact finish_ok rfl
  case h_2 hv => exact finish_answersOf rfl (.illegal rfl (regValue_eq_none.mp hv))

/-- Every command answers with exactly one response, after all the earlier ones. -/
theorem exec_answersOf : AnswersOf i s (exec i s) := by
  cases i with
  | tblReset | encStart | decStart => exact finish_ok rfl
  | tblLookup b => exact lookupResponse_answersOf
  | tblLookupPrefix p b => exact execTblLookupPrefix_answersOf
  | tblLearn p b => exact execTblLearn_answersOf
  | tblResolve c => exact execTblResolve_answersOf
  | encByte b => exact execEncByte_answersOf
  | encFlush => exact execEncFlush_answersOf
  | decCode c => exact execDecCode_answersOf
  | decEnd => exact execDecEnd_answersOf
  | regRead r => exact execRegRead_answersOf

/-- The two fields of a failure's value (R80). -/
theorem invalidStreamValue_toNat (cause : ErrCause) (code : Code) :
    (invalidStreamValue cause code).toNat = cause.bits.toNat * 2 ^ 16 + code.toNat := by
  simp only [invalidStreamValue, BitVec.toNat_append]
  rw [← Nat.shiftLeft_add_eq_or_of_lt code.isLt, ← Nat.shiftLeft_add_eq_or_of_lt cause.bits.isLt]
  simp [Nat.shiftLeft_eq]

/-- A command that has a word is never illegal (R75). -/
theorem Answers.status_ne_illegalCommand {cause : ErrCause} {code : Code} {r : Response}
    (h : Answers i cause code r) (hi : i.WellFormed = true) : r.status ≠ .illegalCommand := by
  cases h with
  | performed hst => rintro rfl; simp at hst
  | failed => simp
  | rejected hst => rintro rfl; simp at hst
  | illegal hreg hr =>
    subst hreg
    exact absurd (of_decide_eq_true hi) (Nat.not_le.mpr hr)

end Response

/-- Settles O14, one clause per kind of response. -/
theorem shapeOfEveryResponse : Obligations.ShapeOfEveryResponse := by
  rintro i s r t ⟨ht, hr⟩
  obtain ⟨q, hq, ha⟩ := exec_answersOf t ht
  obtain rfl : q = r := by simpa [hr] using hq.symm
  cases ha with
  | performed hst hcs => obtain rfl | rfl := hst <;> simp [Status.IsRejection, hcs]
  | failed => simp [Status.IsRejection, invalidStreamValue_toNat]
  | rejected hst => obtain rfl | rfl := hst <;> simp
  | illegal => simp

section Word

variable {s : State} {w : CommandWord}

/-- A word that is no command is answered, and nothing else is written (R76). -/
theorem performWord_of_illegalWord (h : IllegalWord w) : performWord w s = cmdError s .illegalCommand := by
  obtain ⟨e, he⟩ := decode_rejects.mpr h
  simp [performWord, he]

/-- From the invariant a word is answered with one response, which says whether it is a command (R76, R77). -/
theorem performWord_answers (h : s.Inv) (w : CommandWord) :
    ∃ t r, performWord w s = .next t ∧ t.output = s.output ++ [r] ∧ t.input = s.input ∧
      (r.status = .illegalCommand ↔ IllegalWord w) := by
  cases hd : decode w with
  | error e =>
    have hw : IllegalWord w := decode_rejects.mp ⟨e, hd⟩
    exact ⟨_, _, performWord_of_illegalWord hw, rfl, rfl, by simp [hw]⟩
  | ok i =>
    have hw : ¬ IllegalWord w := fun hw => by
      obtain ⟨e, he⟩ := decode_rejects.mpr hw
      simp [hd] at he
    obtain ⟨-, hwf⟩ := encodeOfDecodeIsTheWord w i hd
    obtain ⟨t, ht⟩ := exec_safe (i := i) h.stringsDefined
    obtain ⟨r, hr, ha⟩ := exec_answersOf t ht
    obtain ⟨-, hin, -⟩ := onlyTheseCommandsWrite i s t ht
    exact ⟨t, r, by rw [performWord_of_decode hd, ht], hr, hin, by simp [hw, ha.status_ne_illegalCommand hwf]⟩

/-- The step that takes a command word, from the invariant. -/
theorem step_answers (h : s.Inv) {rest : List HostEvent} (hi : s.input = .command w :: rest) :
    ∃ t r, step s = .next t ∧ t.output = s.output ++ [r] ∧ t.input = rest ∧
      (r.status = .illegalCommand ↔ IllegalWord w) := by
  rw [step_command h.params_legal hi]
  exact performWord_answers (h.streams rest s.output s.freeIndex) w

end Word

/-- Settles O13: no string that a command needs is undefined, so the command answers. -/
theorem everyCommandGetsExactlyOneResponse : Obligations.EveryCommandGetsExactlyOneResponse := by
  intro s w rest h hi
  obtain ⟨t, r, ht, hr, hrest, -⟩ := step_answers h hi
  exact ⟨t, r, ht, hr, hrest⟩

/-- Settles O6: the decoder rejects the illegal words, and a command that has a word is never illegal. -/
theorem illegalWordHasNoEffect : Obligations.IllegalWordHasNoEffect := by
  refine ⟨.inl rfl, fun s w rest h hi => ?_⟩
  obtain ⟨t, r, ht, hr, -, hst⟩ := step_answers h hi
  refine ⟨t, r, ht, hr, hst, fun hw => ?_⟩
  rw [step_command h.params_legal hi, performWord_of_illegalWord hw] at ht
  exact cmdError_eq_next.mp ht

end Sys2Proof.Machine

/-! The machine's table and the string-level table of R137 and R160. -/

namespace Sys2Proof.Machine

/-! ### The string-level table -/

namespace StringTable

variable {capacity : Nat} {T : StringTable} {str : List Byte} {k : Nat}

theorem lookup_eq_some : T.lookup str = some k ↔ T[k]? = some str ∧ ∀ j < k, T[j]? ≠ some str := by
  unfold lookup
  rw [List.findIdx?_eq_some_iff_getElem]
  simp only [decide_eq_true_eq, ne_eq, List.getElem?_eq_some_iff]
  constructor
  · rintro ⟨hk, hstr, hleast⟩
    exact ⟨⟨hk, hstr⟩, fun j hj ⟨_, h⟩ => hleast j hj h⟩
  · rintro ⟨⟨hk, hstr⟩, hleast⟩
    exact ⟨hk, hstr, fun j hj h => hleast j hj ⟨_, h⟩⟩

theorem lookup_eq_none : T.lookup str = none ↔ str ∉ T := by
  simp only [lookup, List.findIdx?_eq_none_iff, decide_eq_false_iff_not]
  exact ⟨fun h hstr => h str hstr rfl, fun h x hx hxs => h (hxs ▸ hx)⟩

/-- Without duplicates a string is found at its only code (R30). -/
theorem lookup_of_nodup (hT : T.Nodup) (hk : T[k]? = some str) : T.lookup str = some k := by
  refine lookup_eq_some.mpr ⟨hk, fun j hj h => ?_⟩
  obtain ⟨hlt, hstr⟩ := List.getElem?_eq_some_iff.mp hk
  obtain ⟨hlt', hstr'⟩ := List.getElem?_eq_some_iff.mp h
  exact absurd (hT.getElem_inj_iff.mp (hstr'.trans hstr.symm)) hj.ne

/-- Learning a string that is not held makes no duplicate (R30). -/
theorem learn_nodup (hT : T.Nodup) (hnew : T.lookup str = none) : (T.learn capacity str).Nodup := by
  unfold learn
  split
  · exact hT.append (List.nodup_singleton _) (by simpa using lookup_eq_none.mp hnew)
  · exact hT

theorem seeds_length : seeds.length = 256 := by simp [seeds]

theorem seeds_getElem? (hk : k < 256) : seeds[k]? = some [BitVec.ofNat 8 k] := by simp [seeds, hk]

theorem seeds_nodup : seeds.Nodup := by
  refine List.Nodup.map_on (fun j hj k hk h => ?_) List.nodup_range
  have := congrArg BitVec.toNat (List.head_eq_of_cons_eq h)
  simp at this hj hk
  omega

/-- What a table holds stays at its code. -/
theorem learn_getElem?_of_lt (hk : k < T.length) : (T.learn capacity str)[k]? = T[k]? := by
  unfold learn
  split
  · exact List.getElem?_append_left hk
  · rfl

theorem learn_getElem?_length (h : T.length < capacity) : (T.learn capacity str)[T.length]? = some str := by
  simp [learn, h]

theorem learn_frozen (h : ¬ T.length < capacity) : T.learn capacity str = T := if_neg h

end StringTable

/-! ### A machine that holds a table -/

section Represents

variable {capacity : Nat} {s : State} {T : StringTable}

/-- A state with legal parameters and the given capacity, whose present codes hold the strings of `T`. -/
structure Represents (capacity : Nat) (s : State) (T : StringTable) : Prop where
  legal : s.params.Legal
  capacity_eq : s.params.capacity.toNat = capacity
  linked : Linked s.entries s.nextCode.toNat
  length_eq : T.length = s.nextCode.toNat
  length_range : 256 ≤ T.length ∧ T.length ≤ capacity
  strOf_eq : ∀ k, strOf s k = T[k]?

/-- A table reset leaves the seeds, whatever the store held before (R100). -/
theorem represents_seeds (hp : s.params.Legal) (hc : s.params.capacity.toNat = capacity) (hn : s.nextCode = 256#17) :
    Represents capacity s StringTable.seeds := by
  have hn' : s.nextCode.toNat = 256 := by rw [hn]; rfl
  have hlen := StringTable.seeds_length
  refine ⟨hp, hc, fun k h1 h2 => by omega, by rw [hlen, hn'], ⟨by omega, hlen ▸ hc ▸ hp.1⟩, fun k => ?_⟩
  by_cases hk : k < 256
  · rw [StringTable.seeds_getElem? hk, strOf_seed hk (show k < _ by omega)]
  · rw [strOf_absent (show ¬ k < _ by omega), List.getElem?_eq_none (by omega)]

namespace Represents

/-- The table of a machine is its store, `NEXT_CODE` and the parameters. -/
theorem congr (h : Represents capacity s T) {t : State} (hp : t.params = s.params) (he : t.entries = s.entries)
    (hn : t.nextCode = s.nextCode) : Represents capacity t T where
  legal := hp ▸ h.legal
  capacity_eq := by rw [hp, h.capacity_eq]
  linked := by rw [he, hn]; exact h.linked
  length_eq := by rw [hn, h.length_eq]
  length_range := h.length_range
  strOf_eq k := (strOf_congr he hn k).trans (h.strOf_eq k)

variable (h : Represents capacity s T)
include h

theorem present_iff {k : Nat} : s.Present k ↔ k < T.length := by rw [h.length_eq]

theorem present_of_getElem? {k : Nat} {str : List Byte} (hk : T[k]? = some str) : s.Present k :=
  present_of_strOf ((h.strOf_eq k).trans hk)

theorem findCode_eq (str : List Byte) : findCode s str = T.lookup str := by
  refine Option.ext fun k => ?_
  simp only [findCode_eq_some, StringTable.lookup_eq_some, h.strOf_eq, and_iff_right_iff_imp, and_imp]
  exact fun hk _ => h.present_of_getElem? hk

/-- Every single byte is held by its seed (R22). -/
theorem getElem?_seed (b : Byte) : T[b.toNat]? = some [b] := by
  obtain ⟨hmin, -⟩ := h.length_range
  rw [← h.strOf_eq, strOf_seed b.isLt (h.present_iff.mpr (by omega)), BitVec.ofNat_toNat, BitVec.setWidth_eq]

/-- Every code fits the 16 bits of a command and of a response (R52). -/
theorem toNat_ofNat_code {k : Nat} (hk : k < T.length) : (BitVec.ofNat 16 k).toNat = k := by
  obtain ⟨-, hmax⟩ := h.length_range
  obtain ⟨-, hcap, -⟩ := h.legal
  have := h.capacity_eq
  exact Nat.mod_eq_of_lt (by omega)

/-- An insertion learns the string of its code with the byte; on a frozen table nothing is learned (R106, R107). -/
theorem learn {p : Code} {x : List Byte} (hx : T.length < capacity → T[p.toNat]? = some x) (b : Byte) :
    Represents capacity (insertEntry s p b).1 (T.learn capacity (x ++ [b])) := by
  by_cases hc : T.length < capacity
  case neg =>
    have hfull : s.params.capacity.toNat ≤ s.nextCode.toNat := by
      rw [h.capacity_eq, ← h.length_eq]
      omega
    rw [insertEntry_frozen hfull, StringTable.learn_frozen hc]
    exact h
  have hlt : s.nextCode.toNat < s.params.capacity.toNat := by rwa [h.capacity_eq, ← h.length_eq]
  have hp := h.present_of_getElem? (hx hc)
  have hlen : (T.learn capacity (x ++ [b])).length = T.length + 1 := by simp [StringTable.learn, hc]
  have hnext : (insertEntry s p b).1.nextCode.toNat = T.length + 1 := by
    rw [insertEntry_nextCode_toNat hlt, h.length_eq]
  obtain ⟨hmin, -⟩ := h.length_range
  have hmin' : 256 ≤ s.nextCode.toNat := h.length_eq ▸ hmin
  refine ⟨by simpa using h.legal, by simpa using h.capacity_eq, insertEntry_linked h.linked hlt hp b,
    by rw [hlen, hnext], by rw [hlen]; omega, fun k => ?_⟩
  obtain hk | rfl | hk := lt_trichotomy k T.length
  · rw [strOf_insertEntry_old h.linked p b (h.present_iff.mpr hk), h.strOf_eq, StringTable.learn_getElem?_of_lt hk]
  · rw [StringTable.learn_getElem?_length hc, h.length_eq]
    exact strOf_insertEntry_new h.linked hmin' hlt hp b ((h.strOf_eq _).trans (hx hc))
  · rw [List.getElem?_eq_none (by omega), strOf_absent]
    show ¬ _ < _
    omega

end Represents
end Represents

/-- A state with other events to take and other responses given: the host's side of the block. -/
def State.withStreams (s : State) (ins : List HostEvent) (outs : List Response) : State :=
  { s with input := ins, output := outs }

/-! ### An encode run -/

/-- Step 2 of `ENC_BYTE` (R132). -/
theorem encodeByte_of_found {s : State} {b : Byte} {buf : List Byte} {k : Nat} (hk : findCode s (buf ++ [b]) = some k) :
    encodeByte s b buf = finish { s with bufCode := BitVec.ofNat 16 k, bufValid := true } .ok 0#32 [] [] := by
  simp [encodeByte, hk]

/-- Step 3 of `ENC_BYTE` (R132). -/
theorem encodeByte_of_absent {s : State} {b : Byte} {buf : List Byte} (hk : findCode s (buf ++ [b]) = none) :
    encodeByte s b buf =
      finish { (insertEntry s s.bufCode b).1 with bufCode := b.setWidth 16, bufValid := true } .ok 1#32 []
        [s.bufCode] := by
  simp [encodeByte, hk]

section Encoding

variable {capacity : Nat} {s : State} {T : StringTable} {buf : List Byte}

/-- An encode run whose table is `T` and whose match buffer holds `buf` (R137). -/
structure Encoding (capacity : Nat) (s : State) (T : StringTable) (buf : List Byte) : Prop where
  table : Represents capacity s T
  fsm_eq : s.fsm = .encRun
  nodup : T.Nodup
  buffer : s.bufValid = false ∧ buf = [] ∨ s.bufValid = true ∧ buf ≠ [] ∧ T[s.bufCode.toNat]? = some buf

/-- `ENC_START` begins a run with the seeds and an empty buffer, in every state with legal parameters (R131). -/
theorem encStart_encoding (hp : s.params.Legal) (hc : s.params.capacity.toNat = capacity) :
    ∃ t r, Responds .encStart s r t ∧ Encoding capacity t StringTable.seeds [] :=
  ⟨_, _, ⟨rfl, rfl⟩, represents_seeds hp hc rfl, rfl, StringTable.seeds_nodup, .inl ⟨rfl, rfl⟩⟩

namespace Encoding

variable (h : Encoding capacity s T buf)
include h

/-- The host's side of the block is no part of the run. -/
theorem withStreams (ins : List HostEvent) (outs : List Response) : Encoding capacity (s.withStreams ins outs) T buf :=
  ⟨h.table.congr rfl rfl rfl, h.fsm_eq, h.nodup, h.buffer⟩

theorem bufStr_eq : bufStr s = some buf := by
  obtain ⟨hv, rfl⟩ | ⟨hv, -, hget⟩ := h.buffer
  · simp [bufStr, hv]
  · simp [bufStr, hv, h.table.strOf_eq, hget]

/-- A candidate that is not found extends a buffer that is not empty, since every single byte is found (R132). -/
theorem getElem?_bufCode_of_lookup_eq_none {b : Byte} (hk : T.lookup (buf ++ [b]) = none) :
    T[s.bufCode.toNat]? = some buf := by
  obtain ⟨-, rfl⟩ | ⟨-, -, hget⟩ := h.buffer
  · exact absurd (List.mem_of_getElem? (h.table.getElem?_seed b)) (StringTable.lookup_eq_none.mp hk)
  · exact hget

theorem exec_encByte (b : Byte) : exec (.encByte b) s = encodeByte s b buf := by
  simp [exec, execEncByte, guarded, h.fsm_eq, legalIn, h.bufStr_eq, withString]

/-- `ENC_BYTE` is one round of the loop of `compress`: it emits what that round emits (R132, R137). -/
theorem encByte (b : Byte) :
    ∃ t r U buf', Responds (.encByte b) s r t ∧ r.status = .ok ∧ Encoding capacity t U buf' ∧
      ∀ d, compressFrom capacity T buf (b :: d) = r.codes.map BitVec.toNat ++ compressFrom capacity U buf' d := by
  have hexec := h.exec_encByte b
  have hfind := h.table.findCode_eq (buf ++ [b])
  cases hk : T.lookup (buf ++ [b]) with
  | some k =>
    obtain ⟨hget, -⟩ := StringTable.lookup_eq_some.mp hk
    have hcode : (BitVec.ofNat 16 k).toNat = k :=
      h.table.toNat_ofNat_code (h.table.present_iff.mp (h.table.present_of_getElem? hget))
    rw [encodeByte_of_found (hfind.trans hk)] at hexec
    refine ⟨_, _, T, buf ++ [b], ⟨hexec, rfl⟩, rfl,
      ⟨h.table.congr rfl rfl rfl, h.fsm_eq, h.nodup, ?_⟩, fun d => ?_⟩
    · exact .inr ⟨rfl, by simp, by rwa [← hcode] at hget⟩
    · simp [compressFrom, hk]
  | none =>
    have hget := h.getElem?_bufCode_of_lookup_eq_none hk
    have hlook := StringTable.lookup_of_nodup h.nodup hget
    have htable := h.table.learn (fun _ => hget) b
    have hseed := htable.getElem?_seed b
    rw [encodeByte_of_absent (hfind.trans hk)] at hexec
    refine ⟨_, _, _, [b], ⟨hexec, congrArg (· ++ [_]) (insertEntry_output ..)⟩, rfl,
      ⟨htable.congr rfl rfl rfl, (insertEntry_fsm ..).trans h.fsm_eq, StringTable.learn_nodup h.nodup hk, ?_⟩,
      fun d => ?_⟩
    · rw [← BitVec.toNat_setWidth_of_le (show 8 ≤ 16 by decide)] at hseed
      exact .inr ⟨rfl, by simp, hseed⟩
    · simp [compressFrom, hk, hlook]

/-- `ENC_FLUSH` emits what `compress` emits at the end of its input (R133, R137). -/
theorem encFlush :
    ∃ t r, Responds .encFlush s r t ∧ r.status = .ok ∧ r.codes.map BitVec.toNat = compressFrom capacity T buf [] := by
  refine ⟨_, _, ⟨by simp only [exec, execEncFlush, guarded, h.fsm_eq, legalIn]; rfl, rfl⟩, rfl, ?_⟩
  obtain ⟨hv, rfl⟩ | ⟨hv, hne, hget⟩ := h.buffer
  · simp [compressFrom, hv]
  · simp [compressFrom, hv, hne, StringTable.lookup_of_nodup h.nodup hget]

end Encoding
end Encoding

/-! ### A decode run -/

section Decoding

variable {capacity : Nat} {s : State} {T : StringTable} {prev : List Byte}

/-- A decode run whose table is `T` and whose previous entry is `prev`: the string of `PREV_CODE`, and after repairs on
a frozen table as many copies of its first byte as `PREV_EXT` counts (R33, R34, R160). -/
structure Decoding (capacity : Nat) (s : State) (T : StringTable) (prev : List Byte) : Prop where
  table : Represents capacity s T
  fsm_eq : s.fsm = .decRun
  previous : ∃ x y, T[s.prevCode.toNat]? = some (x :: y) ∧ prev = x :: y ++ List.replicate s.prevExt.toNat x
  extension : T.length < capacity → s.prevExt = 0

/-- A run that has failed (R203). -/
structure Failed (s : State) : Prop where
  legal : s.params.Legal
  linked : Linked s.entries s.nextCode.toNat
  fsm_eq : s.fsm = .decFailed

/-- A run before its first code (R151). -/
structure Fresh (capacity : Nat) (s : State) : Prop where
  table : Represents capacity s StringTable.seeds
  fsm_eq : s.fsm = .decFirst

/-- `DEC_START` begins a run with the seeds, in every state with legal parameters (R151). -/
theorem decStart_fresh (hp : s.params.Legal) (hc : s.params.capacity.toNat = capacity) :
    ∃ t r, Responds .decStart s r t ∧ Fresh capacity t :=
  ⟨_, _, ⟨rfl, rfl⟩, represents_seeds hp hc rfl, rfl⟩

/-! #### The entry of a later code -/

theorem entryOf_eq_some {e : List Byte} {c : Nat} (he : entryOf T prev c = some e) :
    T[c]? = some e ∨ c = T.length ∧ prev ++ prev.take 1 = e := by
  unfold entryOf StringTable.resolve at he
  split at he
  case h_1 h => exact .inl (h.trans he)
  case h_2 =>
    split at he
    · exact .inr ⟨‹_›, Option.some.inj he⟩
    · cases he

theorem entryOf_eq_none {c : Nat} (he : entryOf T prev c = none) : T.length < c := by
  unfold entryOf StringTable.resolve at he
  split at he
  · cases he
  case h_2 h =>
    have := List.getElem?_eq_none_iff.mp h
    split at he
    · cases he
    · omega

/-- An entry that has a code, or gets one, is the previous entry afterwards (R152). -/
theorem decodeEntry_take {c : Code} {repair : Bool} {x : Byte} {y : List Byte}
    (hc : repair = false ∨ c.toNat < s.params.capacity.toNat) :
    decodeEntry s c repair (x :: y) =
      finish { (insertEntry s s.prevCode x).1 with prevCode := c, prevExt := 0#32 } .ok (lengthValue (x :: y))
        (x :: y) [] := by
  simp only [decodeEntry, zext17_toNat, if_pos hc]

/-- A repair on a frozen table is counted (R157). -/
theorem decodeEntry_count {c : Code} {x : Byte} {y : List Byte} (hc : s.params.capacity.toNat ≤ c.toNat)
    (hn : s.params.capacity.toNat ≤ s.nextCode.toNat) :
    decodeEntry s c true (x :: y) =
      finish { s with prevExt := s.prevExt + 1 } .ok (lengthValue (x :: y)) (x :: y) [] := by
  simp only [decodeEntry, zext17_toNat, insertEntry_frozen hn, Bool.true_eq_false, false_or, if_neg (Nat.not_lt.mpr hc)]

/-! #### `DEC_CODE` and `DEC_END` in each state that allows them (R152, R154, R205) -/

theorem exec_decCode_of_decFirst (hf : s.fsm = .decFirst) (c : Code) : exec (.decCode c) s = decodeFirst s c := by
  simp [exec, execDecCode, guarded, hf, legalIn]

theorem exec_decCode_of_decRun (hf : s.fsm = .decRun) (c : Code) : exec (.decCode c) s = decodeNext s c := by
  simp [exec, execDecCode, guarded, hf, legalIn]

theorem exec_decCode_of_decFailed (hf : s.fsm = .decFailed) (c : Code) : exec (.decCode c) s = repeatFailure s := by
  simp [exec, execDecCode, guarded, hf, legalIn]

theorem exec_decEnd_of_decFirst (hf : s.fsm = .decFirst) :
    exec .decEnd s = finish { recordError s .emptyStream 0#16 with fsm := .idle } .invalidStream
      (invalidStreamValue .emptyStream 0#16) [] [] := by
  simp [exec, execDecEnd, guarded, hf, legalIn]

theorem exec_decEnd_of_decRun (hf : s.fsm = .decRun) :
    exec .decEnd s = finish { s with fsm := .idle } .ok 0#32 [] [] := by
  simp [exec, execDecEnd, guarded, hf, legalIn]

theorem exec_decEnd_of_decFailed (hf : s.fsm = .decFailed) : exec .decEnd s = returnFromFailure s := by
  simp [exec, execDecEnd, guarded, hf, legalIn]

namespace Decoding

variable (h : Decoding capacity s T prev)
include h

/-- The host's side of the block is no part of the run. -/
theorem withStreams (ins : List HostEvent) (outs : List Response) : Decoding capacity (s.withStreams ins outs) T prev :=
  ⟨h.table.congr rfl rfl rfl, h.fsm_eq, h.previous, h.extension⟩

/-- A later code learns the previous entry with a byte (R152); with copies to count the table is frozen. -/
theorem learn (b : Byte) : Represents capacity (insertEntry s s.prevCode b).1 (T.learn capacity (prev ++ [b])) := by
  refine h.table.learn (fun hlt => ?_) b
  obtain ⟨x, y, hxy, rfl⟩ := h.previous
  simp [hxy, h.extension hlt]

/-- A present code (R152). -/
theorem decCode_present {c : Code} {e : List Byte} (he : T[c.toNat]? = some e) :
    ∃ t r, Responds (.decCode c) s r t ∧ r.status = .ok ∧ r.data = e ∧ t.prevExt = 0 ∧
      Decoding capacity t (T.learn capacity (prev ++ e.take 1)) e := by
  have hp := h.table.present_of_getElem? he
  obtain ⟨x, y, hxy, -⟩ := firstOf_defined h.table.linked hp
  obtain rfl : x :: y = e := Option.some.inj (hxy.symm.trans ((h.table.strOf_eq _).trans he))
  have hexec := exec_decCode_of_decRun h.fsm_eq c
  rw [decodeNext, if_pos (by simpa using hp), hxy, withString, decodeEntry_take (.inl rfl)] at hexec
  refine ⟨_, _, ⟨hexec, congrArg (· ++ [_]) (insertEntry_output ..)⟩, rfl, rfl, rfl,
    (h.learn x).congr rfl rfl rfl, (insertEntry_fsm ..).trans h.fsm_eq, ⟨x, y, ?_, by simp⟩, fun _ => rfl⟩
  exact (StringTable.learn_getElem?_of_lt (h.table.present_iff.mp hp)).trans he

theorem zext17_eq_nextCode {c : Code} (hc : c.toNat = T.length) : zext17 c = s.nextCode :=
  BitVec.eq_of_toNat_eq (by rw [zext17_toNat, hc, h.table.length_eq])

/-- The repaired entry is the previous one and its first byte once more (R153), short of the bound of R158. -/
theorem decodeNext_repair {c : Code} (hc : c.toNat = T.length) (hext : s.prevExt.toNat + 1 < 2 ^ 32) :
    decodeNext s c = decodeEntry s c true (prev ++ prev.take 1) := by
  obtain ⟨x, y, hxy, rfl⟩ := h.previous
  have hnext := h.zext17_eq_nextCode hc
  have hfull : extensionFull s c = false := by
    simp only [extensionFull, decide_eq_false_iff_not, not_and]
    rintro - hmax
    simp [hmax] at hext
  have hrep : repairEntry s = some (x :: y ++ List.replicate s.prevExt.toNat x ++ [x]) := by
    simp [repairEntry, prevStr, firstOf, h.table.strOf_eq, hxy]
  rw [decodeNext, if_neg (by simp [operandPresent, hnext]), if_pos hnext, hfull, hrep]
  rfl

/-- The next code, repaired; on a frozen table the repair is counted (R153, R157). -/
theorem decCode_repair {c : Code} (hc : c.toNat = T.length) (hext : s.prevExt.toNat + 1 < 2 ^ 32) :
    ∃ t r, Responds (.decCode c) s r t ∧ r.status = .ok ∧ r.data = prev ++ prev.take 1 ∧
      t.prevExt.toNat ≤ s.prevExt.toNat + 1 ∧
      Decoding capacity t (T.learn capacity (prev ++ (prev ++ prev.take 1).take 1)) (prev ++ prev.take 1) := by
  have hexec := (exec_decCode_of_decRun h.fsm_eq c).trans (h.decodeNext_repair hc hext)
  obtain ⟨x, y, hxy, hprev⟩ := h.previous
  have he : prev ++ prev.take 1 = x :: (y ++ List.replicate s.prevExt.toNat x ++ [x]) := by simp [hprev]
  have hlearn := h.learn x
  rw [he, List.take_succ_cons, List.take_zero]
  rw [he] at hexec
  by_cases hlt : T.length < capacity
  · rw [decodeEntry_take (.inr (by rwa [hc, h.table.capacity_eq]))] at hexec
    refine ⟨_, _, ⟨hexec, congrArg (· ++ [_]) (insertEntry_output ..)⟩, rfl, rfl, by simp,
      hlearn.congr rfl rfl rfl, (insertEntry_fsm ..).trans h.fsm_eq, ⟨x, _, ?_, (List.append_nil _).symm⟩, fun _ => rfl⟩
    show (T.learn _ _)[c.toNat]? = _
    rw [hc, StringTable.learn_getElem?_length hlt, hprev]
    rfl
  · have hcap : s.params.capacity.toNat ≤ c.toNat := by rw [hc, h.table.capacity_eq]; omega
    have hsucc : (s.prevExt + 1).toNat = s.prevExt.toNat + 1 := by bv_omega
    rw [decodeEntry_count hcap (by rwa [← h.table.length_eq, ← hc])] at hexec
    rw [StringTable.learn_frozen hlt]
    refine ⟨_, _, ⟨hexec, rfl⟩, rfl, rfl, hsucc.le, h.table.congr rfl rfl rfl, h.fsm_eq, ⟨x, y, hxy, ?_⟩,
      fun hlt' => absurd hlt' hlt⟩
    show _ = x :: y ++ List.replicate (s.prevExt + 1).toNat x
    rw [hsucc, List.replicate_succ']
    simp

/-- A code above the next one (R162). -/
theorem decCode_unknown {c : Code} (hc : T.length < c.toNat) : ∃ t r, Responds (.decCode c) s r t ∧ Failed t := by
  have hexec := exec_decCode_of_decRun h.fsm_eq c
  have hlt : s.nextCode.toNat < (zext17 c).toNat := by rwa [zext17_toNat, ← h.table.length_eq]
  rw [decodeNext, if_neg (Nat.not_lt.mpr hlt.le), if_neg fun heq => by simp [heq] at hlt] at hexec
  exact ⟨_, _, ⟨hexec, rfl⟩, h.table.legal, h.table.linked, rfl⟩

theorem decEnd : ∃ t r, Responds .decEnd s r t ∧ r.status = .ok :=
  ⟨_, _, ⟨exec_decEnd_of_decRun h.fsm_eq, rfl⟩, rfl⟩

/-- `DEC_CODE` is one round of the loop of `decompress` (R152, R160). -/
theorem decCode {c : Code} {e : List Byte} (he : entryOf T prev c.toNat = some e)
    (hext : s.prevExt.toNat + 1 < 2 ^ 32) :
    ∃ t r, Responds (.decCode c) s r t ∧ r.status = .ok ∧ r.data = e ∧ t.prevExt.toNat ≤ s.prevExt.toNat + 1 ∧
      Decoding capacity t (T.learn capacity (prev ++ e.take 1)) e := by
  obtain hget | ⟨hc, rfl⟩ := entryOf_eq_some he
  · obtain ⟨t, r, hr, hst, hdata, hzero, hnext⟩ := h.decCode_present hget
    exact ⟨t, r, hr, hst, hdata, by simp [hzero], hnext⟩
  · exact h.decCode_repair hc hext

end Decoding

namespace Failed

variable (h : Failed s)
include h

/-- The host's side of the block is no part of the run. -/
theorem withStreams (ins : List HostEvent) (outs : List Response) : Failed (s.withStreams ins outs) :=
  ⟨h.legal, h.linked, h.fsm_eq⟩

/-- Every further code repeats the failure (R205). -/
theorem decCode (c : Code) : ∃ t r, Responds (.decCode c) s r t ∧ Failed t :=
  ⟨_, _, ⟨exec_decCode_of_decFailed h.fsm_eq c, rfl⟩, h.legal, h.linked, h.fsm_eq⟩

theorem decEnd : ∃ t r, Responds .decEnd s r t ∧ r.status = .invalidStream :=
  ⟨_, _, ⟨exec_decEnd_of_decFailed h.fsm_eq, rfl⟩, rfl⟩

end Failed

namespace Fresh

variable (h : Fresh capacity s)
include h

/-- The host's side of the block is no part of the run. -/
theorem withStreams (ins : List HostEvent) (outs : List Response) : Fresh capacity (s.withStreams ins outs) :=
  ⟨h.table.congr rfl rfl rfl, h.fsm_eq⟩

/-- The first code is resolved in the seeds (R155, R160). -/
theorem decCode {c : Code} {e : List Byte} (he : StringTable.seeds.resolve c.toNat = some e) :
    ∃ t r, Responds (.decCode c) s r t ∧ r.status = .ok ∧ r.data = e ∧ t.prevExt = 0 ∧
      Decoding capacity t StringTable.seeds e := by
  have hc : c.toNat < 256 := StringTable.seeds_length ▸ (List.getElem?_eq_some_iff.mp he).1
  have hexec := exec_decCode_of_decFirst h.fsm_eq c
  rw [decodeFirst, if_pos hc] at hexec
  have hseed := StringTable.seeds_getElem? hc
  obtain rfl : [BitVec.ofNat 8 c.toNat] = e := Option.some.inj (hseed.symm.trans he)
  exact ⟨_, _, ⟨hexec, rfl⟩, rfl, rfl, rfl, h.table.congr rfl rfl rfl, rfl, ⟨_, _, hseed, rfl⟩, fun _ => rfl⟩

theorem decCode_notSeed {c : Code} (he : StringTable.seeds.resolve c.toNat = none) :
    ∃ t r, Responds (.decCode c) s r t ∧ Failed t := by
  have hc : 256 ≤ c.toNat := StringTable.seeds_length ▸ List.getElem?_eq_none_iff.mp he
  have hexec := exec_decCode_of_decFirst h.fsm_eq c
  rw [decodeFirst, if_neg (Nat.not_lt.mpr hc)] at hexec
  exact ⟨_, _, ⟨hexec, rfl⟩, h.table.legal, h.table.linked, rfl⟩

/-- The empty stream (R154). -/
theorem decEnd : ∃ t r, Responds .decEnd s r t ∧ r.status = .invalidStream :=
  ⟨_, _, ⟨exec_decEnd_of_decFirst h.fsm_eq, rfl⟩, rfl⟩

end Fresh
end Decoding

end Sys2Proof.Machine

/-! Runs with reads in between (R81, R236, R240). -/

namespace Sys2Proof.Machine

section Words

variable {i : Instr}

/-- The commands without a legal word are the reads of a reserved register (R75). -/
theorem wellFormed_eq_false (h : i.WellFormed = false) : ∃ r, i = .regRead r ∧ 9 < r.toNat := by
  cases i with
  | regRead r => exact ⟨r, rfl, by simpa [Instr.WellFormed] using h⟩
  | tblReset | tblLookup | tblLookupPrefix | tblLearn | tblResolve | encStart | encByte | encFlush | decStart | decCode
  | decEnd => cases h

theorem decode_encode_reserved {r : Byte} (hr : 9 < r.toNat) :
    decode (encode (.regRead r)) = .error .reservedRegister := by
  rw [decode, encode, fieldsOf_packFields]
  simp [encodeFields, decodeFields, Nat.not_le.mpr hr]

/-- A word that the host packs from a command is performed as that command; a reserved register is rejected either way
(R75, R180). -/
theorem performWord_encode (i : Instr) (s : State) : performWord (encode i) s = exec i s := by
  cases hwf : i.WellFormed with
  | true => exact performWord_of_decode (decode_encode hwf)
  | false =>
    obtain ⟨r, rfl, hr⟩ := wellFormed_eq_false hwf
    simp [performWord, decode_encode_reserved hr, exec, execRegRead, regValue_eq_none.mpr hr]

end Words

/-! ### The exchanges of issued commands -/

section Exchanges

variable {i last : Instr} {r : Response} {xs ys : List Exchange}

/-- What an exchange answers is the command its word was packed from. -/
theorem eq_of_answered {j : Instr} {q : Response} (h : (commandExchange (encode i) r).answered = some (j, q)) :
    i.WellFormed = true ∧ j = i ∧ q = r := by
  cases hwf : i.WellFormed with
  | true =>
    rw [answered_command r (decode_encode hwf)] at h
    cases h
    exact ⟨rfl, rfl, rfl⟩
  | false =>
    obtain ⟨b, rfl, hb⟩ := wellFormed_eq_false hwf
    rw [answered_illegal r (decode_encode_reserved hb)] at h
    cases h

/-- A run goes on over every command but its last one and the table resets (R245). -/
theorem runUntil_command (hlast : i ≠ last) (hreset : ¬ IsTableReset i) (xs : List Exchange) :
    runUntil last (commandExchange (encode i) r :: xs) =
      (runUntil last xs).map fun run => (commandExchange (encode i) r :: run.1, run.2) := by
  refine runUntil_skip ?_ ?_ xs
  · unfold Exchange.endsWith
    split
    next h =>
      obtain ⟨-, rfl, -⟩ := eq_of_answered h
      exact if_neg hlast
    · rfl
  · simp only [Exchange.abandons]
    split
    case h_4 => rfl
    all_goals
      next h =>
        obtain ⟨-, rfl, -⟩ := eq_of_answered h
        exact absurd (by simp [IsTableReset]) hreset

/-- The exchanges of reads: none of them emits a code. -/
def AreReads (xs : List Exchange) : Prop :=
  ∀ x ∈ xs, ∃ i r, isRead i = true ∧ x = commandExchange (encode i) r ∧ r.codes = []

theorem AreReads.runUntil_append (hx : AreReads xs) (hlast : isRead last = false) (ys : List Exchange) :
    runUntil last (xs ++ ys) = (runUntil last ys).map fun run => (xs ++ run.1, run.2) := by
  induction xs with
  | nil => simp
  | cons x xs ih =>
    obtain ⟨hhead, htail⟩ := List.forall_mem_cons.mp hx
    obtain ⟨i, r, hi, rfl, -⟩ := hhead
    have hne : i ≠ last := by rintro rfl; simp [hi] at hlast
    have hreset : ¬ IsTableReset i := by rintro (rfl | rfl | rfl) <;> cases hi
    rw [List.cons_append, runUntil_command hne hreset, ih htail, Option.map_map]
    rfl

/-- The codes of a list of exchanges (R81). -/
def codesOf (xs : List Exchange) : List Code := runCodes (xs.flatMap (·.responses))

theorem codesOf_append : codesOf (xs ++ ys) = codesOf xs ++ codesOf ys := by simp [codesOf]

theorem codesOf_command {w : CommandWord} : codesOf (commandExchange w r :: xs) = r.codes ++ codesOf xs := by
  simp [codesOf, runCodes]

/-- Reads add no code to the output of a run (R81). -/
theorem AreReads.codesOf_eq (hx : AreReads xs) : codesOf xs = [] := by
  simp only [codesOf, runCodes, List.flatMap_eq_nil_iff, List.mem_flatMap]
  rintro r ⟨x, hmem, hr⟩
  obtain ⟨i, q, -, rfl, hq⟩ := hx x hmem
  obtain rfl : r = q := by simpa using hr
  exact hq

theorem runBytes_append : runBytes (xs ++ ys) = runBytes xs ++ runBytes ys := by simp [runBytes]

/-- The bytes of a run are those of its `DEC_CODE` responses (R81). -/
theorem bytes_command : (commandExchange (encode i) r).bytes = if ∃ c, i = .decCode c then r.data else [] := by
  split
  next h =>
    obtain ⟨c, rfl⟩ := h
    exact bytes_decCode (answered_command r (decode_encode rfl))
  next h =>
    refine bytes_other fun c q hq => h ⟨c, ?_⟩
    obtain ⟨-, hi, -⟩ := eq_of_answered hq
    exact hi.symm

/-- Reads add no byte to the output of a run: the string a `TBL_RESOLVE` answers is no part of it (R81). -/
theorem AreReads.runBytes_eq (hx : AreReads xs) : runBytes xs = [] := by
  refine List.flatMap_eq_nil_iff.mpr fun x hmem => ?_
  obtain ⟨i, r, hi, rfl, -⟩ := hx x hmem
  rw [bytes_command, if_neg]
  rintro ⟨c, rfl⟩
  cases hi

end Exchanges

/-! ### The next command of a run, after the reads before it -/

section Interleaved

variable {s t : State} {i last : Instr} {is js : List Instr} {r : Response}

/-- The commands of a run that is interleaved with reads (R236, R240). -/
abbrev withoutReads (is : List Instr) : List Instr := is.filter fun i => !isRead i

/-- A command leaves the host's events and the parameters. -/
theorem Responds.frame (h : Responds i s r t) : t.input = s.input ∧ t.params = s.params := by
  obtain ⟨hp, hin, -⟩ := onlyTheseCommandsWrite i s t h.1
  exact ⟨hin, hp⟩

/-- The step that takes an issued command adds its exchange. -/
theorem transcript_issue (hp : s.params.Legal) (hs : s.input = issue (i :: is))
    (h : Responds i (s.withStreams (issue is) s.output) r t) (n : Nat) :
    transcript (n + 1) s = commandExchange (encode i) r :: transcript n t := by
  obtain ⟨hexec, hout⟩ := h
  have hstep : step s = .next t := (step_command hp hs).trans ((performWord_encode i _).trans hexec)
  rw [transcript_next hstep, exchangeOf_command hs hout]
  rfl

/-- Before each command of a run the block has answered the reads before it, and nothing but the host's streams has
changed (R240). -/
theorem transcript_next_command (hp : s.params.Legal) (hl : Linked s.entries s.nextCode.toNat)
    (hs : s.input = issue is) (his : withoutReads is = i :: js) :
    ∃ is' outs xs, withoutReads is' = js ∧ AreReads xs ∧
      ∀ r t, Responds i (s.withStreams (issue is') outs) r t →
        transcript is.length s = xs ++ commandExchange (encode i) r :: transcript is'.length t := by
  induction is generalizing s with
  | nil => simp at his
  | cons j is ih =>
    cases hj : isRead j with
    | false =>
      obtain ⟨rfl, rfl⟩ : j = i ∧ withoutReads is = js := by simpa [List.filter_cons, hj] using his
      exact ⟨is, s.output, [], rfl, nofun, fun r t h => transcript_issue hp hs h _⟩
    | true =>
      have his' : withoutReads is = i :: js := by simpa [List.filter_cons, hj] using his
      obtain ⟨u, hu⟩ := isRead_safe (s := s.withStreams (issue is) s.output) hj hl
      obtain ⟨st, v, d, rfl, -⟩ := isRead_repeats hj u hu
      obtain ⟨q, hq, hread⟩ : ∃ q : Response, q.codes = [] ∧ Responds j _ q _ := ⟨_, rfl, hu, rfl⟩
      obtain ⟨is', outs, xs, hjs, hxs, hnext⟩ :=
        ih (s := respond (s.withStreams (issue is) s.output) st v d []) hp hl rfl his'
      refine ⟨is', outs, _ :: xs, hjs, List.forall_mem_cons.mpr ⟨⟨j, q, hj, rfl, hq⟩, hxs⟩, fun r t h => ?_⟩
      rw [List.length_cons, transcript_issue hp hs hread, hnext r t h]
      rfl

end Interleaved

/-! ### The three kinds of run -/

section Runs

variable {capacity : Nat} {s : State} {T : StringTable} {is : List Instr}

/-- The exchanges of a run in progress up to the response to its last command. -/
abbrev runOf (last : Instr) (is : List Instr) (s : State) : Option (List Exchange × Status) :=
  runUntil last (transcript is.length s)

/-- A command that ends no run, after the reads before it: the run goes on from the state it leaves. -/
theorem runOf_command {i last : Instr} {js : List Instr} (hp : s.params.Legal)
    (hl : Linked s.entries s.nextCode.toNat) (hs : s.input = issue is) (his : withoutReads is = i :: js)
    (hlast : i ≠ last) (hread : isRead last = false) (hreset : ¬ IsTableReset i) :
    ∃ is' outs xs, withoutReads is' = js ∧ AreReads xs ∧
      ∀ r t, Responds i (s.withStreams (issue is') outs) r t → t.input = issue is' ∧ ∀ run st,
        runOf last is' t = some (run, st) →
          runOf last is s = some (xs ++ commandExchange (encode i) r :: run, st) := by
  obtain ⟨is', outs, xs, hjs, hxs, hnext⟩ := transcript_next_command hp hl hs his
  refine ⟨is', outs, xs, hjs, hxs, fun r t h => ⟨h.frame.1, fun run st hrun => ?_⟩⟩
  rw [runOf] at hrun ⊢
  rw [hnext r t h, hxs.runUntil_append hread, runUntil_command hlast hreset, hrun]
  rfl

/-- The last command of a run, after the reads before it. -/
theorem runOf_last {last : Instr} {js : List Instr} (hp : s.params.Legal) (hl : Linked s.entries s.nextCode.toNat)
    (hs : s.input = issue is) (his : withoutReads is = last :: js) (hwf : last.WellFormed = true)
    (hread : isRead last = false) :
    ∃ is' outs xs, AreReads xs ∧ ∀ r t, Responds last (s.withStreams (issue is') outs) r t →
      runOf last is s = some (xs ++ [commandExchange (encode last) r], r.status) := by
  obtain ⟨is', outs, xs, -, hxs, hnext⟩ := transcript_next_command hp hl hs his
  refine ⟨is', outs, xs, hxs, fun r t h => ?_⟩
  rw [runOf, hnext r t h, hxs.runUntil_append hread, runUntil_end (answered_command r (decode_encode hwf))]
  rfl

/-- An encode run emits what `compress` emits from the same table and buffer (R137). -/
theorem Encoding.runOf_eq {buf : List Byte} {d : List Byte} (h : Encoding capacity s T buf) (hs : s.input = issue is)
    (his : withoutReads is = d.map .encByte ++ [.encFlush]) :
    ∃ run, runOf .encFlush is s = some (run, .ok) ∧
      (codesOf run).map BitVec.toNat = compressFrom capacity T buf d := by
  induction d generalizing s is T buf with
  | nil =>
    obtain ⟨is', outs, xs, hxs, hend⟩ := runOf_last h.table.legal h.table.linked hs his rfl rfl
    obtain ⟨t, r, hr, hst, hcodes⟩ := (h.withStreams (issue is') outs).encFlush
    refine ⟨_, hst ▸ hend r t hr, ?_⟩
    rw [codesOf_append, hxs.codesOf_eq, codesOf_command, List.nil_append, List.map_append, hcodes]
    exact List.append_nil _
  | cons b d ih =>
    obtain ⟨is', outs, xs, his', hxs, hnext⟩ :=
      runOf_command (last := .encFlush) h.table.legal h.table.linked hs his (by simp) rfl (by simp [IsTableReset])
    obtain ⟨t, r, U, buf', hr, -, ht, hround⟩ := (h.withStreams (issue is') outs).encByte b
    obtain ⟨hin, hgo⟩ := hnext r t hr
    obtain ⟨run, hrun, hcodes⟩ := ih ht hin his'
    refine ⟨_, hgo run .ok hrun, ?_⟩
    rw [codesOf_append, hxs.codesOf_eq, codesOf_command, List.nil_append, List.map_append, hcodes, hround]

/-- A failed run ends with the status of its failure (R205). -/
theorem Failed.runOf_eq {cs : List Code} (h : Failed s) (hs : s.input = issue is)
    (his : withoutReads is = cs.map .decCode ++ [.decEnd]) :
    ∃ run, runOf .decEnd is s = some (run, .invalidStream) := by
  induction cs generalizing s is with
  | nil =>
    obtain ⟨is', outs, xs, -, hend⟩ := runOf_last h.legal h.linked hs his rfl rfl
    obtain ⟨t, r, hr, hst⟩ := (h.withStreams (issue is') outs).decEnd
    exact ⟨_, hst ▸ hend r t hr⟩
  | cons c cs ih =>
    obtain ⟨is', outs, xs, his', -, hnext⟩ :=
      runOf_command (last := .decEnd) h.legal h.linked hs his (by simp) rfl (by simp [IsTableReset])
    obtain ⟨t, r, hr, ht⟩ := (h.withStreams (issue is') outs).decCode c
    obtain ⟨hin, hgo⟩ := hnext r t hr
    obtain ⟨run, hrun⟩ := ih ht hin his'
    exact ⟨_, hgo run _ hrun⟩

/-- What a decode run has to give where the string-level decoder has decoded `out`: those bytes with status `OK`, or
status `INVALID_STREAM` where it has failed (R160, R239). -/
def Decodes (out : Option (List Byte)) (run : List Exchange) (st : Status) : Prop :=
  match out with
  | some d => runBytes run = d ∧ st = .ok
  | none   => st = .invalidStream

/-- A `DEC_CODE` before a run adds its data to what the run decodes. -/
theorem Decodes.cons {out : Option (List Byte)} {run xs : List Exchange} {st : Status} {c : Code} {r : Response}
    (h : Decodes out run st) (hxs : AreReads xs) :
    Decodes (out.map (r.data ++ ·)) (xs ++ commandExchange (encode (.decCode c)) r :: run) st := by
  cases out with
  | none => exact h
  | some d =>
    obtain ⟨rfl, hst⟩ := h
    exact ⟨by simp [runBytes_append, hxs.runBytes_eq, bytes_command], hst⟩

/-- A decode run decodes what `decompress` decodes from the same table and previous entry, short of the bound of R158
(R160). -/
theorem Decoding.runOf_eq {prev : List Byte} {cs : List Code} (h : Decoding capacity s T prev) (hs : s.input = issue is)
    (his : withoutReads is = cs.map .decCode ++ [.decEnd]) (hext : s.prevExt.toNat + cs.length < 2 ^ 32) :
    ∃ run st, runOf .decEnd is s = some (run, st) ∧
      Decodes (decompressFrom capacity T prev (cs.map BitVec.toNat)) run st := by
  induction cs generalizing s is T prev with
  | nil =>
    obtain ⟨is', outs, xs, hxs, hend⟩ := runOf_last h.table.legal h.table.linked hs his rfl rfl
    obtain ⟨t, r, hr, hst⟩ := (h.withStreams (issue is') outs).decEnd
    exact ⟨_, _, hend r t hr, by simp [runBytes_append, hxs.runBytes_eq, bytes_command], hst⟩
  | cons c cs ih =>
    rw [List.length_cons] at hext
    obtain ⟨is', outs, xs, his', hxs, hnext⟩ :=
      runOf_command (last := .decEnd) h.table.legal h.table.linked hs his (by simp) rfl (by simp [IsTableReset])
    have h' := h.withStreams (issue is') outs
    rw [List.map_cons, decompressFrom]
    cases he : entryOf T prev c.toNat with
    | none =>
      obtain ⟨t, r, hr, ht⟩ := h'.decCode_unknown (entryOf_eq_none he)
      obtain ⟨hin, hgo⟩ := hnext r t hr
      obtain ⟨run, hrun⟩ := ht.runOf_eq hin his'
      exact ⟨_, _, hgo run _ hrun, rfl⟩
    | some e =>
      obtain ⟨t, r, hr, -, rfl, hcount, ht⟩ := h'.decCode he (by show s.prevExt.toNat + 1 < _; omega)
      obtain ⟨hin, hgo⟩ := hnext r t hr
      obtain ⟨run, st, hrun, hdec⟩ := ih ht hin his' (by have : _ ≤ s.prevExt.toNat + 1 := hcount; omega)
      exact ⟨_, _, hgo run st hrun, hdec.cons hxs⟩

/-- A whole decode run, from before its first code (R160). -/
theorem Fresh.runOf_eq {cs : List Code} (h : Fresh capacity s) (hs : s.input = issue is)
    (his : withoutReads is = cs.map .decCode ++ [.decEnd]) (hlen : cs.length < 2 ^ 32) :
    ∃ run st, runOf .decEnd is s = some (run, st) ∧ Decodes (decompress capacity (cs.map BitVec.toNat)) run st := by
  cases cs with
  | nil =>
    obtain ⟨is', outs, xs, -, hend⟩ := runOf_last h.table.legal h.table.linked hs his rfl rfl
    obtain ⟨t, r, hr, hst⟩ := (h.withStreams (issue is') outs).decEnd
    exact ⟨_, _, hend r t hr, hst⟩
  | cons c cs =>
    rw [List.length_cons] at hlen
    obtain ⟨is', outs, xs, his', hxs, hnext⟩ :=
      runOf_command (last := .decEnd) h.table.legal h.table.linked hs his (by simp) rfl (by simp [IsTableReset])
    have h' := h.withStreams (issue is') outs
    rw [List.map_cons, decompress]
    cases he : StringTable.seeds.resolve c.toNat with
    | none =>
      obtain ⟨t, r, hr, ht⟩ := h'.decCode_notSeed he
      obtain ⟨hin, hgo⟩ := hnext r t hr
      obtain ⟨run, hrun⟩ := ht.runOf_eq hin his'
      exact ⟨_, _, hgo run _ hrun, rfl⟩
    | some e =>
      obtain ⟨t, r, hr, -, rfl, hzero, ht⟩ := h'.decCode he
      obtain ⟨hin, hgo⟩ := hnext r t hr
      obtain ⟨run, st, hrun, hdec⟩ := ht.runOf_eq hin his' (by rw [hzero]; simp; omega)
      exact ⟨_, _, hgo run st hrun, hdec.cons hxs⟩

/-! ### The start of a run -/

/-- What is observed of a run that `ENC_START` begins. -/
theorem observe_encStart {r : Response} {xs run : List Exchange} {st : Status}
    (h : runUntil .encFlush xs = some (run, st)) :
    observe (commandExchange (encode .encStart) r :: xs) = some (.encoded (codesOf run) st) := by
  simp [observe, answered_command r (decode_encode (i := .encStart) rfl), h, codesOf]

/-- What is observed of a run that `DEC_START` begins. -/
theorem observe_decStart {r : Response} {xs run : List Exchange} {st : Status}
    (h : runUntil .decEnd xs = some (run, st)) :
    observe (commandExchange (encode .decStart) r :: xs) = some (.decoded (runBytes run) st) := by
  simp [observe, answered_command r (decode_encode (i := .decStart) rfl), h]

/-- The state in which the host has issued a run's commands. -/
abbrev State.withCommands (s : State) (is : List Instr) : State := s.withStreams (issue is) s.output

/-- An encode run with reads anywhere after its start (R137, R240). -/
theorem observe_encode_run (hp : s.params.Legal) {d : List Byte}
    (his : withoutReads is = d.map .encByte ++ [.encFlush]) :
    ∃ codes, observe (transcript (is.length + 1) (s.withCommands (.encStart :: is))) = some (.encoded codes .ok) ∧
      codes.map BitVec.toNat = compress s.params.capacity.toNat d := by
  obtain ⟨t, r, hr, ht⟩ := encStart_encoding (s := s.withCommands is) hp rfl
  obtain ⟨run, hrun, hcodes⟩ := ht.runOf_eq hr.frame.1 his
  rw [transcript_issue (s := s.withCommands (.encStart :: is)) hp rfl hr]
  exact ⟨_, observe_encStart hrun, hcodes⟩

/-- A decode run with reads anywhere after its start (R160, R240). -/
theorem observe_decode_run (hp : s.params.Legal) {cs : List Code} (hlen : cs.length < 2 ^ 32)
    (his : withoutReads is = cs.map .decCode ++ [.decEnd]) :
    ∃ run st, observe (transcript (is.length + 1) (s.withCommands (.decStart :: is))) =
        some (.decoded (runBytes run) st) ∧
      Decodes (decompress s.params.capacity.toNat (cs.map BitVec.toNat)) run st := by
  obtain ⟨t, r, hr, ht⟩ := decStart_fresh (s := s.withCommands is) hp rfl
  obtain ⟨run, st, hrun, hdec⟩ := ht.runOf_eq hr.frame.1 his hlen
  rw [transcript_issue (s := s.withCommands (.decStart :: is)) hp rfl hr]
  exact ⟨run, st, observe_decStart hrun, hdec⟩

end Runs

/-- Settles O53: each command of the run is one round of the string-level loop, and the reads before it change nothing
but the responses. -/
theorem interleavedReadsAreNoPartOfTheRun : Obligations.InterleavedReadsAreNoPartOfTheRun := by
  refine fun s is hp => ⟨fun d his => observe_encode_run hp his, fun cs hlen his => ?_⟩
  obtain ⟨run, st, hobs, hdec⟩ := observe_decode_run hp hlen his
  refine ⟨fun d hd => ?_, fun hnone => ?_⟩
  · rw [hd] at hdec
    obtain ⟨rfl, rfl⟩ := hdec
    exact hobs
  · rw [hnone] at hdec
    obtain rfl := hdec
    exact ⟨_, hobs⟩

end Sys2Proof.Machine

/-! The table and its commands (40_table.md). -/

namespace Sys2Proof.Machine

/-! ### Strings by `PREFIX` code and byte (R111, R113) -/

section Prefixes

variable {s : State} {k : Nat} {str : List Byte} {b : Byte}

/-- A code is a number below `2^16`, so the fields of commands and responses hold it (R10, R52). -/
theorem State.Inv.toNat_ofNat_present (h : s.Inv) (hk : s.Present k) {w : Nat} (hw : 16 ≤ w) :
    (BitVec.ofNat w k).toNat = k := by
  obtain ⟨-, hcap, -⟩ := h.params_legal
  have hlt : k < 2 ^ 16 := Nat.lt_of_lt_of_le hk (h.next_range.2.trans hcap)
  exact Nat.mod_eq_of_lt (hlt.trans_le (Nat.pow_le_pow_right (by decide) hw))

/-- A code that holds a further byte after a string that is not empty is a learned one, over a code of that string. -/
theorem strOf_eq_append_iff (hl : Linked s.entries s.nextCode.toNat) (hne : str ≠ []) :
    strOf s k = some (str ++ [b]) ↔
      256 ≤ k ∧ s.Present k ∧
        ∃ e, Memory.read s.entries k = some e ∧ strOf s e.pre.toNat = some str ∧ e.suffix = b := by
  constructor
  · intro hk
    have hp := present_of_strOf hk
    have hpos := List.length_pos_iff.mpr hne
    have h256 : 256 ≤ k := by
      by_contra hlt
      have hlen := (strOf_length hl hk).1 (by omega)
      simp only [List.length_append, List.length_singleton] at hlen
      omega
    obtain ⟨e, x, he, -, hx, hstr⟩ := strOf_learned hl h256 hp
    obtain ⟨rfl, hb⟩ := List.append_inj' (Option.some.inj (hstr.symm.trans hk)) rfl
    exact ⟨h256, hp, e, he, hx, List.head_eq_of_cons_eq hb⟩
  · rintro ⟨h256, hp, e, he, hx, rfl⟩
    obtain ⟨e', y, he', -, hy, hstr⟩ := strOf_learned hl h256 hp
    obtain rfl : e = e' := Option.some.inj (he.symm.trans he')
    obtain rfl : str = y := Option.some.inj (hx.symm.trans hy)
    exact hstr

/-- Along the chain of `PREFIX` codes from a code stand all the non-empty prefixes of its string (R111). -/
theorem strOf_take (hl : Linked s.entries s.nextCode.toNat) {n : Nat} (h1 : 1 ≤ n) :
    ∀ {k : Nat} {str : List Byte}, strOf s k = some str → n ≤ str.length → ∃ j ≤ k, strOf s j = some (str.take n) := by
  intro k
  induction k using Nat.strong_induction_on with
  | _ k ih =>
    intro str hk hn
    obtain hn | rfl := Nat.lt_or_eq_of_le hn
    case inr => exact ⟨k, le_rfl, by rwa [List.take_length]⟩
    have h256 : 256 ≤ k := by
      by_contra hlt
      have := (strOf_length hl hk).1 (by omega)
      omega
    obtain ⟨e, x, -, hlt, hx, hstr⟩ := strOf_learned hl h256 (present_of_strOf hk)
    obtain rfl : x ++ [e.suffix] = str := Option.some.inj (hstr.symm.trans hk)
    have hnx : n ≤ x.length := by simpa [Nat.lt_succ_iff] using hn
    obtain ⟨j, hj, hjn⟩ := ih _ hlt hx hnx
    exact ⟨j, hj.trans hlt.le, by rwa [List.take_append_of_le_length hnx]⟩

/-- Without duplicates the code that holds a string is the one that is found (R30). -/
theorem findCode_eq_some_of_noDuplicates (hu : s.NoDuplicates) : findCode s str = some k ↔ strOf s k = some str := by
  refine ⟨fun h => ?_, fun h => findCode_eq_some.mpr ⟨present_of_strOf h, h, fun j hj hjs => ?_⟩⟩
  · obtain ⟨-, hstr, -⟩ := findCode_eq_some.mp h
    exact hstr
  · exact hj.ne (hu j k (present_of_strOf hjs) (present_of_strOf h) (hjs.trans h.symm))

end Prefixes

/-- Settles O19: the first clause is the recursion of R24, the second an induction along the chain of `PREFIX` codes. -/
theorem prefixesOfStringsArePresent : Obligations.PrefixesOfStringsArePresent := by
  intro s k str h hk
  refine ⟨fun h256 => ?_, fun n h1 hn => ?_⟩
  · obtain ⟨e, x, he, -, hx, hstr⟩ := strOf_learned h.linked h256 (present_of_strOf hk)
    obtain rfl : x ++ [e.suffix] = str := Option.some.inj (hstr.symm.trans hk)
    exact ⟨e, he, present_of_strOf hx, by rwa [List.dropLast_concat]⟩
  · obtain ⟨j, hj, hjn⟩ := strOf_take h.linked h1 hk hn
    exact ⟨j, hj, present_of_strOf hjn, hjn⟩

/-- Settles O21: the `PREFIX` of a code that holds `STR(p) ++ [b]` holds `STR(p)`, as `p` alone does. -/
theorem findMatchesTheKeyWithoutDuplicates : Obligations.FindMatchesTheKeyWithoutDuplicates := by
  intro s p b str h hu hp k
  have hne : str ≠ [] := fun hnil => strOf_ne_nil h.linked _ (hnil ▸ hp)
  rw [findCode_eq_some_of_noDuplicates hu, strOf_eq_append_iff h.linked hne]
  refine and_congr_right fun _ => and_congr_right fun _ => ⟨?_, fun he => ⟨_, he, hp, rfl⟩⟩
  rintro ⟨e, he, hpre, rfl⟩
  obtain rfl : e.pre = p :=
    BitVec.eq_of_toNat_eq (hu _ _ (present_of_strOf hpre) (present_of_strOf hp) (hpre.trans hp.symm))
  exact he

/-! ### `TBL_LOOKUP` (R102, R112) -/

section Lookup

variable {s : State} {k : Nat} {str : List Byte} {p : Code}

theorem lookupResponse_of_found (hk : findCode s str = some k) :
    lookupResponse s str = finish s .ok (BitVec.ofNat 32 k) [] [] := by
  simp [lookupResponse, hk]

theorem lookupResponse_of_absent (hk : findCode s str = none) : lookupResponse s str = finish s .notFound 0#32 [] [] := by
  simp [lookupResponse, hk]

/-- A single byte is found at its seed, which is its number (R22, R29). -/
theorem findCode_seed (hn : Config.seedCount ≤ s.nextCode.toNat) (b : Byte) : findCode s [b] = some b.toNat := by
  have hseed {j : Nat} (hj : j < 256) : strOf s j = some [BitVec.ofNat 8 j] := strOf_seed hj (seed_present hn hj)
  refine findCode_eq_some.mpr ⟨seed_present hn b.isLt, by simpa using hseed b.isLt, fun j hj hstr => ?_⟩
  rw [hseed (hj.trans b.isLt)] at hstr
  have hb : BitVec.ofNat 8 j = b := List.head_eq_of_cons_eq (Option.some.inj hstr)
  rw [← hb, BitVec.toNat_ofNat] at hj
  exact absurd hj (Nat.not_lt.mpr (Nat.mod_le _ _))

theorem exec_tblLookup (hn : Config.seedCount ≤ s.nextCode.toNat) (b : Byte) :
    exec (.tblLookup b) s = finish s .ok (b.setWidth 32) [] [] := by
  rw [← BitVec.ofNat_toNat]
  exact lookupResponse_of_found (findCode_seed hn b)

/-- With a present `p` the candidate is looked up (R72, R102). -/
theorem exec_tblLookupPrefix (hp : strOf s p.toNat = some str) (b : Byte) :
    exec (.tblLookupPrefix p b) s = lookupResponse s (str ++ [b]) := by
  have hpres : p.toNat < s.nextCode.toNat := present_of_strOf hp
  simp [exec, execTblLookupPrefix, hpres, candidate, hp, withString]

theorem exec_tblLookupPrefix_absent (hp : s.nextCode.toNat ≤ p.toNat) (b : Byte) :
    exec (.tblLookupPrefix p b) s = cmdError s .operandError :=
  if_neg (by simpa using hp)

/-- The host reads off a lookup's response what `FIND` answers. -/
theorem answeredCode_lookupResponse (h : s.Inv) (str : List Byte) :
    answeredCode s (lookupResponse s str) = findCode s str := by
  cases hk : findCode s str with
  | none =>
    rw [lookupResponse_of_absent hk]
    simp [answeredCode, finish]
  | some k =>
    obtain ⟨hp, -⟩ := findCode_eq_some.mp hk
    have hv : (BitVec.ofNat 32 k).toNat = k := h.toNat_ofNat_present hp (by decide)
    rw [lookupResponse_of_found hk]
    simpa [answeredCode, finish] using hv

/-- What no code holds begins no string of the table (R111). -/
theorem findCode_append_eq_none (hl : Linked s.entries s.nextCode.toNat) (hne : str ≠ [])
    (hk : findCode s str = none) (bs : List Byte) : findCode s (str ++ bs) = none := by
  refine findCode_eq_none.mpr fun j hj => ?_
  obtain ⟨i, -, hi⟩ := strOf_take hl (List.length_pos_iff.mpr hne) hj (by simp)
  rw [List.take_left] at hi
  exact findCode_eq_none.mp hk i hi

/-- The chain from the code of a string so far answers `FIND` of the whole string (R112). -/
theorem lookupFrom_findCode (h : s.Inv) (hne : str ≠ []) (bs : List Byte) :
    lookupFrom s (findCode s str) bs = findCode s (str ++ bs) := by
  induction bs generalizing str with
  | nil => simp [lookupFrom]
  | cons b bs ih =>
    cases hk : findCode s str with
    | none => rw [lookupFrom, findCode_append_eq_none h.linked hne hk]
    | some k =>
      obtain ⟨hp, hstr, -⟩ := findCode_eq_some.mp hk
      have hstr : strOf s (BitVec.ofNat 16 k).toNat = some str := by rwa [h.toNat_ofNat_present hp le_rfl]
      rw [lookupFrom, exec_tblLookupPrefix hstr, answeredCode_lookupResponse h, ih (by simp), List.append_assoc]
      rfl

end Lookup

/-- Settles O22: an induction on the bytes still to look up. -/
theorem lookupChainFindsAnyString : Obligations.LookupChainFindsAnyString := by
  intro s str h
  cases str with
  | nil => exact (findCode_eq_none.mpr (strOf_ne_nil h.linked)).symm
  | cons b bs =>
    show lookupFrom s (answeredCode s (lookupResponse s [b])) bs = _
    rw [answeredCode_lookupResponse h, lookupFrom_findCode h (by simp)]
    rfl

/-- Settles O25: the response is that of `FIND`, and a code that holds more than one byte is a learned one. -/
theorem lookupAnswersTheLeastCode : Obligations.LookupAnswersTheLeastCode := by
  intro s h
  obtain ⟨-, hword, hwordPrefix, -⟩ := encodingsOfEveryOpcode
  refine ⟨fun p b => ⟨hword b, hwordPrefix p b⟩, exec_tblLookup h.next_range.1,
    fun p b hp => exec_tblLookupPrefix_absent hp b, fun p b hp => ?_⟩
  obtain ⟨str, hstr, hne⟩ := strOf_defined h.linked hp
  refine ⟨str, hstr, ?_⟩
  rw [exec_tblLookupPrefix hstr]
  cases hk : findCode s (str ++ [b]) with
  | none => exact .inr ⟨findCode_eq_none.mp hk, lookupResponse_of_absent hk⟩
  | some k =>
    obtain ⟨hpk, hstrk, hleast⟩ := findCode_eq_some.mp hk
    obtain ⟨h256, -⟩ := (strOf_eq_append_iff h.linked hne).mp hstrk
    have hv : (BitVec.ofNat 32 k).toNat = k := h.toNat_ofNat_present hpk (by decide)
    refine .inl ⟨BitVec.ofNat 32 k, ?_⟩
    rw [hv]
    exact ⟨h256, hpk, hstrk, fun j hj => Nat.not_lt.mp fun hlt => hleast j hlt hj, lookupResponse_of_found hk⟩

/-! ### The table resets (R100, R101, R131, R151) -/

/-- With `NEXT_CODE` at 256 the seeds alone have strings, whatever the slots hold (R24, R25). -/
theorem strOf_of_nextCode_eq {s : State} (hn : s.nextCode = 256#17) :
    (∀ k < 256, strOf s k = some [BitVec.ofNat 8 k]) ∧ (∀ k ≥ 256, strOf s k = none) := by
  have hp (k : Nat) : s.Present k ↔ k < 256 := by simp [State.Present, hn]
  exact ⟨fun k hk => strOf_seed hk ((hp k).mpr hk), fun k hk => strOf_absent fun h => Nat.not_lt.mpr hk ((hp k).mp h)⟩

/-- Settles O23: each of the three writes constants in every state. -/
theorem resetAndStartCommands : Obligations.ResetAndStartCommands :=
  ⟨rfl, rfl, rfl, fun _ => ⟨rfl, rfl, rfl⟩⟩

/-- Settles O24: what the three write is known, and it leaves the store. -/
theorem tableResetLeavesTheSeeds : Obligations.TableResetLeavesTheSeeds := by
  intro i s t hi ht
  obtain rfl | rfl | rfl := hi
  all_goals
    obtain rfl := finish_eq_next.mp ht
    exact ⟨rfl, rfl, rfl, strOf_of_nextCode_eq rfl⟩

/-! ### `TBL_LEARN` and `TBL_RESOLVE` (R103, R104) -/

section LearnResolve

variable {s : State} {p c : Code} {b : Byte} {str : List Byte}

/-- A table that is not frozen is below capacity (R26, R27). -/
theorem TableInv.lt_capacity_of_ne (ht : s.TableOk) (hne : s.nextCode ≠ s.params.capacity) :
    s.nextCode.toNat < s.params.capacity.toNat :=
  ht.next_range.2.lt_of_ne fun heq => hne (BitVec.eq_of_toNat_eq heq)

/-- What an insertion leaves the table as (R106 to R108). -/
theorem insertEntry_inserted (ht : s.TableOk) (p : Code) (b : Byte) : Inserted s p b (insertEntry s p b).1 := by
  unfold Inserted
  split
  case isTrue hfull =>
    rw [insertEntry_frozen (by rw [hfull])]
    exact ⟨rfl, rfl, rfl⟩
  case isFalse hfree =>
    have hc := ht.lt_capacity_of_ne hfree
    rw [insertEntry_entries hc, insertEntry_curWidth_toNat ht.params_legal hc, insertEntry_nextCode_toNat hc]
    exact ⟨rfl, Memory.read_write_same _ _ _, fun k hk => Memory.read_write_other _ _ hk, rfl⟩

/-- An insertion writes the table's registers alone (R106). -/
theorem insertEntry_frame (s : State) (p : Code) (b : Byte) :
    (insertEntry s p b).1 = { s with
      entries := (insertEntry s p b).1.entries
      nextCode := (insertEntry s p b).1.nextCode
      curWidth := (insertEntry s p b).1.curWidth } := by
  by_cases hc : s.nextCode.toNat < s.params.capacity.toNat
  · rw [insertEntry_below hc]
  · rw [insertEntry_frozen (Nat.not_lt.mp hc)]

theorem exec_tblLearn_stateError (hf : s.fsm ≠ .idle) (p : Code) (b : Byte) :
    exec (.tblLearn p b) s = cmdError s .stateError :=
  if_neg (mt legalIn_learn.mp hf)

theorem exec_tblLearn_operandError (hf : s.fsm = .idle) (hp : s.nextCode.toNat ≤ p.toNat) (b : Byte) :
    exec (.tblLearn p b) s = cmdError s .operandError := by
  simp [exec, execTblLearn, guarded, legalIn_learn.mpr hf, hp]

theorem exec_tblLearn_frozen (hf : s.fsm = .idle) (hp : s.Present p.toNat)
    (hc : s.params.capacity.toNat ≤ s.nextCode.toNat) (b : Byte) :
    exec (.tblLearn p b) s = finish s .ok 0xFFFFFFFF#32 [] [] := by
  simp [exec, execTblLearn, guarded, legalIn_learn.mpr hf, hp, insertEntry_frozen hc]

theorem exec_tblLearn_below (hf : s.fsm = .idle) (hp : s.Present p.toNat)
    (hc : s.nextCode.toNat < s.params.capacity.toNat) (b : Byte) :
    exec (.tblLearn p b) s = finish (insertEntry s p b).1 .ok (s.nextCode.setWidth 32) [] [] := by
  have hins : insertEntry s p b = ((insertEntry s p b).1, some s.nextCode) := by rw [insertEntry_below hc]
  simp only [exec, execTblLearn, guarded, legalIn_learn.mpr hf, operandPresent, zext17_toNat, if_pos hp, if_true]
  rw [hins]

theorem exec_tblResolve (hc : strOf s c.toNat = some str) :
    exec (.tblResolve c) s = finish s .ok (lengthValue str) str [] := by
  have hpres : c.toNat < s.nextCode.toNat := present_of_strOf hc
  simp [exec, execTblResolve, hpres, hc, withString]

theorem exec_tblResolve_absent (hc : s.nextCode.toNat ≤ c.toNat) :
    exec (.tblResolve c) s = finish s .notFound 0#32 [] [] :=
  if_neg (by simpa using hc)

/-- A string of the table is no longer than its code, so no length saturates (R24, log entry 13). -/
theorem strOf_length_lt (hl : Linked s.entries s.nextCode.toNat) (hc : strOf s c.toNat = some str) :
    str.length < 2 ^ 32 := by
  have hlt := c.isLt
  obtain ⟨hseed, hlearned⟩ := strOf_length hl hc
  by_cases h256 : c.toNat < 256
  · have := hseed h256
    omega
  · have := hlearned (by omega)
    omega

theorem lengthValue_of_lt (h : str.length < 2 ^ 32) : lengthValue str = BitVec.ofNat 32 str.length := by
  rw [lengthValue, min_eq_left (by omega)]

end LearnResolve

/-- Settles O26: the insertion's own laws, under the checks of R209. -/
theorem learnInEveryCase : Obligations.LearnInEveryCase := by
  intro s p b h
  obtain ⟨ht, -⟩ := inv_iff.mp h
  obtain ⟨-, -, -, hword, -⟩ := encodingsOfEveryOpcode
  refine ⟨hword p b, fun hf => exec_tblLearn_stateError hf p b, fun hf hp => exec_tblLearn_operandError hf hp b,
    fun hf hp hfull => exec_tblLearn_frozen hf hp (by rw [hfull]) b, fun hf hp hfree => ?_⟩
  have hc := ht.lt_capacity_of_ne hfree
  obtain ⟨str, hstr, -⟩ := strOf_defined h.linked hp
  exact ⟨_, str, exec_tblLearn_below hf hp hc b, insertEntry_inserted ht p b,
    congrArg (respond · .ok (s.nextCode.setWidth 32) [] []) (insertEntry_frame s p b), hstr,
    strOf_insertEntry_new h.linked h.next_range.1 hc hp b hstr, fun k => strOf_insertEntry_old h.linked p b⟩

/-- Settles O27: a present code has a string, whose length the response holds. -/
theorem resolveAnswersTheString : Obligations.ResolveAnswersTheString := by
  intro s c h
  obtain ⟨-, -, -, -, hword, -⟩ := encodingsOfEveryOpcode
  refine ⟨hword c, fun hc => ?_, exec_tblResolve_absent⟩
  obtain ⟨str, hstr, -⟩ := strOf_defined h.linked hc
  have hlen := strOf_length_lt h.linked hstr
  refine ⟨str, hstr, ?_, hlen⟩
  rw [exec_tblResolve hstr, lengthValue_of_lt hlen]
  rfl

end Sys2Proof.Machine

/-! The nominal code width is inert (R109). -/

namespace Sys2Proof.Machine

section Blank

variable {s : State} {a b a' b' : Result}

/-- Two results that agree but for `CUR_WIDTH` and `MAX_WIDTH` of their next states. -/
def AgreeButWidth (a b : Result) : Prop := mapNext blankWidth a = mapNext blankWidth b

/-! ### Blanking and the shared operations -/

theorem finish_agree {u v : State} (h : blankWidth u = blankWidth v) (st : Status) (x : Value) (d : List Byte)
    (cs : List Code) : AgreeButWidth (finish u st x d cs) (finish v st x d cs) :=
  congrArg (fun w => Host.Outcome.next (respond w st x d cs)) h

theorem ite_agree {c : Prop} [Decidable c] (ht : c → AgreeButWidth a a') (he : ¬ c → AgreeButWidth b b') :
    AgreeButWidth (if c then a else b) (if c then a' else b') := by
  split
  case isTrue hc => exact ht hc
  case isFalse hc => exact he hc

/-- The legality matrix reads `STATUS.STATE` alone (R207). -/
theorem guarded_agree {g : Guarded} (h : AgreeButWidth a b) :
    AgreeButWidth (guarded g s a) (guarded g (blankWidth s) b) :=
  ite_agree (fun _ => h) fun _ => rfl

theorem withString_agree {k : Nat} {str : Option (List Byte)} {f g : List Byte → Result}
    (h : ∀ x, AgreeButWidth (f x) (g x)) : AgreeButWidth (withString k str f) (withString k str g) := by
  cases str with
  | none => rfl
  | some x => exact h x

/-- `WIDTH_TRACK` writes the width alone (R108). -/
theorem blankWidth_widthTrack (s : State) : blankWidth (widthTrack s) = blankWidth s := by
  rw [widthTrack_eq]
  rfl

/-- Whether and what an insertion writes does not depend on the width (R106). -/
theorem insertEntry_blankWidth (s : State) (p : Code) (x : Byte) :
    blankWidth (insertEntry (blankWidth s) p x).1 = blankWidth (insertEntry s p x).1 ∧
    (insertEntry (blankWidth s) p x).2 = (insertEntry s p x).2 := by
  by_cases h : s.nextCode.toNat < s.params.capacity.toNat
  · have h' : (blankWidth s).nextCode.toNat < (blankWidth s).params.capacity.toNat := h
    rw [insertEntry_below h, insertEntry_below h']
    exact ⟨rfl, rfl⟩
  · have h' : ¬ (blankWidth s).nextCode.toNat < (blankWidth s).params.capacity.toNat := h
    rw [insertEntry_frozen (Nat.not_lt.mp h), insertEntry_frozen (Nat.not_lt.mp h')]
    exact ⟨rfl, rfl⟩

/-! ### The commands -/

theorem lookupResponse_agree {str : List Byte} :
    AgreeButWidth (lookupResponse s str) (lookupResponse (blankWidth s) str) := by
  have hfind : findCode (blankWidth s) str = findCode s str := findCode_congr rfl rfl str
  cases hk : findCode s str with
  | none =>
    rw [lookupResponse_of_absent hk, lookupResponse_of_absent (hfind.trans hk)]
    rfl
  | some k =>
    rw [lookupResponse_of_found hk, lookupResponse_of_found (hfind.trans hk)]
    rfl

theorem execTblLookupPrefix_agree {p : Code} {x : Byte} :
    AgreeButWidth (execTblLookupPrefix p x s) (execTblLookupPrefix p x (blankWidth s)) :=
  ite_agree (fun _ => withString_agree fun _ => lookupResponse_agree) fun _ => rfl

theorem execTblResolve_agree {c : Code} : AgreeButWidth (execTblResolve c s) (execTblResolve c (blankWidth s)) :=
  ite_agree (fun _ => withString_agree fun _ => rfl) fun _ => rfl

theorem execTblLearn_agree {p : Code} {x : Byte} :
    AgreeButWidth (execTblLearn p x s) (execTblLearn p x (blankWidth s)) := by
  refine guarded_agree (ite_agree (fun _ => ?_) fun _ => rfl)
  obtain ⟨hstate, hcode⟩ := insertEntry_blankWidth s p x
  generalize insertEntry s p x = r at *
  generalize insertEntry (blankWidth s) p x = r' at *
  obtain ⟨u, k⟩ := r
  obtain ⟨u', k'⟩ := r'
  obtain rfl : k' = k := hcode
  cases k' <;> exact finish_agree hstate.symm _ _ _ _

theorem encodeByte_agree {x : Byte} {buf : List Byte} :
    AgreeButWidth (encodeByte s x buf) (encodeByte (blankWidth s) x buf) := by
  have hfind : findCode (blankWidth s) (buf ++ [x]) = findCode s (buf ++ [x]) := findCode_congr rfl rfl _
  cases hk : findCode s (buf ++ [x]) with
  | some k =>
    rw [encodeByte_of_found hk, encodeByte_of_found (hfind.trans hk)]
    rfl
  | none =>
    rw [encodeByte_of_absent hk, encodeByte_of_absent (hfind.trans hk)]
    obtain ⟨hstate, -⟩ := insertEntry_blankWidth s s.bufCode x
    refine finish_agree ?_ _ _ _ _
    exact congrArg (fun u : State => { u with bufCode := x.setWidth 16, bufValid := true }) hstate.symm

theorem decodeEntry_agree {c : Code} {repair : Bool} {entry : List Byte} :
    AgreeButWidth (decodeEntry s c repair entry) (decodeEntry (blankWidth s) c repair entry) := by
  cases entry with
  | nil => rfl
  | cons x y =>
    obtain ⟨hstate, -⟩ := insertEntry_blankWidth s s.prevCode x
    refine ite_agree (fun _ => finish_agree ?_ _ _ _ _) fun _ => finish_agree ?_ _ _ _ _
    · exact congrArg (fun u : State => { u with prevCode := c, prevExt := 0#32 }) hstate.symm
    · exact congrArg (fun u : State => { u with prevExt := s.prevExt + 1 }) hstate.symm

/-- A present code, the next code with its repair, and an unknown code (R152, R153, R162). -/
theorem decodeNext_agree {c : Code} : AgreeButWidth (decodeNext s c) (decodeNext (blankWidth s) c) :=
  ite_agree (fun _ => withString_agree fun _ => decodeEntry_agree) fun _ =>
    ite_agree (fun _ => ite_agree (fun _ => rfl) fun _ => withString_agree fun _ => decodeEntry_agree) fun _ => rfl

theorem decodeFirst_agree {c : Code} : AgreeButWidth (decodeFirst s c) (decodeFirst (blankWidth s) c) :=
  ite_agree (fun _ => rfl) fun _ => rfl

theorem execDecCode_agree {c : Code} : AgreeButWidth (execDecCode c s) (execDecCode c (blankWidth s)) := by
  refine guarded_agree ?_
  have hf : (blankWidth s).fsm = s.fsm := rfl
  rw [hf]
  cases s.fsm with
  | decFailed => rfl
  | decFirst => exact decodeFirst_agree
  | idle | encRun | decRun => exact decodeNext_agree

theorem execDecEnd_agree : AgreeButWidth (execDecEnd s) (execDecEnd (blankWidth s)) := by
  refine guarded_agree ?_
  have hf : (blankWidth s).fsm = s.fsm := rfl
  rw [hf]
  cases s.fsm <;> rfl

/-- Of the registers only 2 and 4 hold the width and its ceiling (R181). -/
theorem regValue_blankWidth (s : State) : ∀ {r : Nat}, r ≠ 2 → r ≠ 4 → regValue (blankWidth s) r = regValue s r
  | 0, _, _ | 1, _, _ | 3, _, _ | 5, _, _ | 6, _, _ | 7, _, _ | 8, _, _ | 9, _, _ | _ + 10, _, _ => rfl
  | 2, h2, _ => absurd rfl h2
  | 4, _, h4 => absurd rfl h4

theorem execRegRead_agree {r : Byte} (h2 : r ≠ 2) (h4 : r ≠ 4) :
    AgreeButWidth (execRegRead r s) (execRegRead r (blankWidth s)) := by
  have hval := regValue_blankWidth s (r := r.toNat) (fun h => h2 (BitVec.eq_of_toNat_eq h)) fun h =>
    h4 (BitVec.eq_of_toNat_eq h)
  unfold execRegRead
  rw [hval]
  cases regValue s r.toNat <;> rfl

/-- Blanking the width and its ceiling changes the outcome of no command but the two reads by more than these two. -/
theorem exec_agree {i : Instr} (h2 : i ≠ .regRead 2) (h4 : i ≠ .regRead 4) :
    AgreeButWidth (exec i s) (exec i (blankWidth s)) := by
  cases i with
  | tblReset | encStart | decStart => rfl
  | tblLookup x => exact lookupResponse_agree
  | tblLookupPrefix p x => exact execTblLookupPrefix_agree
  | tblLearn p x => exact execTblLearn_agree
  | tblResolve c => exact execTblResolve_agree
  | encByte x => exact guarded_agree (withString_agree fun _ => encodeByte_agree)
  | encFlush => exact guarded_agree rfl
  | decCode c => exact execDecCode_agree
  | decEnd => exact execDecEnd_agree
  | regRead r => exact execRegRead_agree (fun h => h2 (h ▸ rfl)) fun h => h4 (h ▸ rfl)

/-- A read of the width or of its ceiling is performed and writes nothing (R180). -/
theorem exec_regRead_width {i : Instr} (hi : i = .regRead 2 ∨ i = .regRead 4) (s : State) :
    ∃ v, exec i s = finish s .ok v [] [] := by
  obtain rfl | rfl := hi <;> exact ⟨_, rfl⟩

end Blank

/-- Settles O50: each of the two states behaves as the state they both blank to. -/
theorem codeWidthIsInert : Obligations.CodeWidthIsInert := by
  refine fun i s t h => ⟨fun h2 h4 => ?_, fun hi => ?_⟩
  · have hs : AgreeButWidth (exec i s) (exec i (blankWidth s)) := exec_agree h2 h4
    have ht : AgreeButWidth (exec i t) (exec i (blankWidth t)) := exec_agree h2 h4
    exact hs.trans (h ▸ ht.symm)
  · obtain ⟨v, hs⟩ := exec_regRead_width hi s
    obtain ⟨w, ht⟩ := exec_regRead_width hi t
    refine ⟨v, w, congrArg (mapNext blankWidth) hs, ?_⟩
    rw [ht]
    exact finish_agree h.symm .ok w [] []

end Sys2Proof.Machine

/-! The encoder and its whole runs (41_encoder.md). -/

namespace Sys2Proof.Machine

/-! ### `ENC_BYTE` and `ENC_FLUSH` (R132, R133) -/

section Commands

variable {s : State} {b : Byte} {buf : List Byte}

theorem exec_encByte_stateError (hf : s.fsm ≠ .encRun) (b : Byte) :
    exec (.encByte b) s = cmdError s .stateError :=
  if_neg (mt legalIn_encode.mp hf)

/-- In a run the byte is consumed against the string of the buffer. -/
theorem exec_encByte (hf : s.fsm = .encRun) (hbuf : bufStr s = some buf) (b : Byte) :
    exec (.encByte b) s = encodeByte s b buf := by
  simp [exec, execEncByte, guarded, legalIn_encode.mpr hf, hbuf, withString]

theorem exec_encFlush_stateError (hf : s.fsm ≠ .encRun) : exec .encFlush s = cmdError s .stateError :=
  if_neg (mt legalIn_encode.mp hf)

/-- In a run the flush emits `codes`, the code of a buffer that is not empty. -/
theorem exec_encFlush (hf : s.fsm = .encRun) {codes : List Code}
    (hcodes : (if s.bufValid then [s.bufCode] else []) = codes) :
    exec .encFlush s = finish { s with bufValid := false, bufCode := 0#16, fsm := .idle } .ok
      (BitVec.ofNat 32 codes.length) [] codes := by
  subst hcodes
  exact if_pos (legalIn_encode.mpr hf)

end Commands

/-- Settles O28: the two outcomes of `FIND` are step 2 and step 3. -/
theorem encodeByteExtendsOrEmits : Obligations.EncodeByteExtendsOrEmits := by
  intro s b h
  obtain ⟨ht, -⟩ := inv_iff.mp h
  obtain ⟨-, -, -, -, -, -, hword, -⟩ := encodingsOfEveryOpcode
  refine ⟨hword b, fun hf => exec_encByte_stateError hf b, fun hf => ?_⟩
  obtain ⟨buf, hbuf, -⟩ := bufStr_defined h.linked (h.buffer_present hf)
  have hexec := exec_encByte hf hbuf b
  refine ⟨buf, fun hv => ?_, fun hv => ?_, fun k hk => ?_, fun hnew => ?_⟩
  · simpa [bufStr, hv, eq_comm] using hbuf
  · simpa [bufStr, hv] using hbuf
  · obtain ⟨hpres, -⟩ := findCode_eq_some.mp hk
    exact ⟨_, h.toNat_ofNat_present hpres le_rfl, hexec.trans (encodeByte_of_found hk)⟩
  · obtain ⟨hv, -⟩ := bufStr_of_findCode_none ht hbuf hnew
    refine ⟨hv, _, hexec.trans (encodeByte_of_absent hnew), insertEntry_inserted ht s.bufCode b, ?_⟩
    rw [insertEntry_frame]
    rfl

/-- Settles O29: a single byte is found at its seed. -/
theorem firstByteBecomesTheBuffer : Obligations.FirstByteBecomesTheBuffer := by
  intro s b h hf hv
  have hbuf : bufStr s = some [] := by simp [bufStr, hv]
  rw [exec_encByte hf hbuf, encodeByte_of_found (findCode_seed h.next_range.1 b), BitVec.ofNat_toNat]
  rfl

/-- Settles O30: whether the buffer is valid decides what is emitted. -/
theorem flushEmitsTheBuffer : Obligations.FlushEmitsTheBuffer := by
  obtain ⟨-, -, -, -, -, -, -, hword, -⟩ := encodingsOfEveryOpcode
  exact ⟨hword, fun s => ⟨fun hf => exec_encFlush_stateError hf, fun hf hv => exec_encFlush hf (if_pos hv),
    fun hf hv => exec_encFlush hf (if_neg (by simp [hv]))⟩⟩

/-- Settles O57: the byte is found at its seed, and the flush emits that. -/
theorem singleByteCompressesToItsSeed : Obligations.SingleByteCompressesToItsSeed := by
  intro capacity x _
  have hseed : StringTable.seeds.lookup [x] = some x.toNat :=
    StringTable.lookup_of_nodup StringTable.seeds_nodup (by simpa using StringTable.seeds_getElem? x.isLt)
  simp [compress, compressFrom, hseed]

/-! ### A list of issued commands, taken one after another -/

/-- From `s` the block takes the issued commands `is` in order, each as one event, answers them `rs`, and is left in `t`
(R62, R77). -/
inductive Performs : List Instr → List Response → State → State → Prop where
  | nil {s} : Performs [] [] s s
  | cons {i is r rs evs s u t} (hp : s.params.Legal) (hs : s.input = .command (encode i) :: evs)
      (h : Responds i (s.withStreams evs s.output) r u) (hrest : Performs is rs u t) : Performs (i :: is) (r :: rs) s t

/-- The exchanges of issued commands with their responses. -/
def exchanges (is : List Instr) (rs : List Response) : List Exchange :=
  List.zipWith (fun i r => commandExchange (encode i) r) is rs

@[simp] theorem exchanges_cons (i : Instr) (is : List Instr) (r : Response) (rs : List Response) :
    exchanges (i :: is) (r :: rs) = commandExchange (encode i) r :: exchanges is rs := rfl

@[simp] theorem runCodes_cons (r : Response) (rs : List Response) : runCodes (r :: rs) = r.codes ++ runCodes rs := rfl

section Performs

variable {is js : List Instr} {rs qs : List Response} {evs : List HostEvent} {s u t : State}
  {i last : Instr} {r : Response}

/-- An issued command is one step with one exchange. -/
theorem step_issued (hp : s.params.Legal) (hs : s.input = .command (encode i) :: evs)
    (h : Responds i (s.withStreams evs s.output) r t) :
    step s = .next t ∧ exchangeOf s t = [commandExchange (encode i) r] := by
  obtain ⟨hexec, hout⟩ := h
  exact ⟨(step_command hp hs).trans ((performWord_encode i _).trans hexec), exchangeOf_command hs hout⟩

namespace Performs

theorem append (h : Performs is rs s u) (h' : Performs js qs u t) : Performs (is ++ js) (rs ++ qs) s t := by
  induction h with
  | nil => exact h'
  | cons hp hs hr _ ih => exact .cons hp hs hr (ih h')

theorem steps_eq (h : Performs is rs s t) : steps is.length s = .next t := by
  induction h with
  | nil => rfl
  | cons hp hs hr _ ih =>
    obtain ⟨hstep, -⟩ := step_issued hp hs hr
    rw [List.length_cons, steps, hstep]
    exact ih

theorem step_eq (h : Performs [i] [r] s t) : step s = .next t := by
  obtain _ | ⟨hp, hs, hr, ⟨⟩⟩ := h
  exact (step_issued hp hs hr).1

theorem transcript_eq (h : Performs is rs s t) : transcript is.length s = exchanges is rs := by
  induction h with
  | nil => rfl
  | cons hp hs hr _ ih =>
    obtain ⟨hstep, hex⟩ := step_issued hp hs hr
    rw [List.length_cons, transcript_next hstep, hex, ih]
    rfl

theorem output_eq (h : Performs is rs s t) : t.output = s.output ++ rs := by
  induction h with
  | nil => simp
  | cons _ _ hr _ ih =>
    obtain ⟨-, hout⟩ := hr
    rw [ih, hout, List.append_assoc]
    rfl

/-- Nothing but the issued commands is taken, and the parameters stay. -/
theorem frame (h : Performs is rs s t) (hs : s.input = issue is ++ evs) : t.input = evs ∧ t.params = s.params := by
  induction h with
  | nil => exact ⟨hs, rfl⟩
  | cons _ hs' hr _ ih =>
    obtain ⟨hin, hparams⟩ := hr.frame
    obtain ⟨-, rfl⟩ := List.cons.inj (hs'.symm.trans hs)
    obtain ⟨hevs, hp⟩ := ih hin
    exact ⟨hevs, hp.trans hparams⟩

theorem codesOf_exchanges (h : Performs is rs s t) : codesOf (exchanges is rs) = runCodes rs := by
  induction h with
  | nil => rfl
  | cons _ _ _ _ ih => exact codesOf_command.trans (congrArg _ ih)

/-- A run in which its last command comes last, and before it no table reset, is all of the exchanges (R245). -/
theorem runUntil_exchanges (h : Performs (is ++ [last]) rs s t) (his : ∀ i ∈ is, i ≠ last ∧ ¬ IsTableReset i)
    (hwf : last.WellFormed = true) (hok : ∀ r ∈ rs, r.status = .ok) :
    runUntil last (exchanges (is ++ [last]) rs) = some (exchanges (is ++ [last]) rs, .ok) := by
  induction is generalizing s rs with
  | nil =>
    obtain _ | ⟨_, _, _, ⟨⟩⟩ := h
    rw [← hok _ List.mem_cons_self]
    exact runUntil_end (answered_command _ (decode_encode hwf)) []
  | cons i is ih =>
    obtain _ | ⟨_, _, _, hrest⟩ := h
    obtain ⟨⟨hlast, hreset⟩, his⟩ := List.forall_mem_cons.mp his
    obtain ⟨-, hok⟩ := List.forall_mem_cons.mp hok
    have hrun := ih hrest his hok
    rw [List.cons_append, exchanges_cons, runUntil_command hlast hreset]
    exact congrArg _ hrun

end Performs
end Performs

/-! ### The bytes of an encode run -/

section Bytes

variable {capacity : Nat} {s t : State} {T : StringTable} {buf d : List Byte} {evs : List HostEvent} {b : Byte}
  {r : Response}

/-- An insertion counts `NEXT_CODE` up to the capacity (R106, R107). -/
theorem insertEntry_nextCode_eq_min (hn : s.nextCode.toNat ≤ s.params.capacity.toNat) (p : Code) (b : Byte) :
    (insertEntry s p b).1.nextCode.toNat = min (s.nextCode.toNat + 1) s.params.capacity.toNat := by
  by_cases hc : s.nextCode.toNat < s.params.capacity.toNat
  · rw [insertEntry_nextCode_toNat hc]
    omega
  · rw [insertEntry_frozen (Nat.not_lt.mp hc), min_eq_right (by omega)]
    exact hn.antisymm (Nat.not_lt.mp hc)

namespace Encoding

theorem nextCode_range (h : Encoding capacity s T buf) :
    s.nextCode.toNat = T.length ∧ s.nextCode.toNat ≤ s.params.capacity.toNat ∧ s.params.capacity.toNat = capacity := by
  obtain ⟨-, hmax⟩ := h.table.length_range
  rw [h.table.capacity_eq, ← h.table.length_eq]
  exact ⟨rfl, hmax, rfl⟩

/-- Each emitted code comes with one learn attempt, and no byte leaves the buffer empty (R132, R135). -/
theorem encByte_learns (h : Encoding capacity s T buf) (hr : Responds (.encByte b) s r t) :
    t.nextCode.toNat = min (s.nextCode.toNat + r.codes.length) capacity ∧ t.bufValid = true := by
  obtain ⟨hexec, hout⟩ := hr
  obtain ⟨-, hmax, hcap⟩ := h.nextCode_range
  rw [h.exec_encByte] at hexec
  cases hk : findCode s (buf ++ [b]) with
  | some k =>
    rw [encodeByte_of_found hk, finish_eq_next] at hexec
    subst hexec
    obtain ⟨rfl, -⟩ := List.cons.inj (List.append_cancel_left hout)
    exact ⟨(min_eq_left (hcap ▸ hmax)).symm, rfl⟩
  | none =>
    rw [encodeByte_of_absent hk, finish_eq_next] at hexec
    subst hexec
    rw [respond_output, insertEntry_output] at hout
    obtain ⟨rfl, -⟩ := List.cons.inj (List.append_cancel_left hout)
    exact ⟨hcap ▸ insertEntry_nextCode_eq_min hmax s.bufCode b, rfl⟩

/-- The bytes of a run are rounds of the loop of `compress` (R137), and the codes emitted for them count the learn
attempts (R135). -/
theorem performs_bytes (h : Encoding capacity s T buf) (hs : s.input = issue (d.map .encByte) ++ evs) :
    ∃ rs t U buf', Performs (d.map .encByte) rs s t ∧ Encoding capacity t U buf' ∧ (∀ r ∈ rs, r.status = .ok) ∧
      compressFrom capacity T buf d = (runCodes rs).map BitVec.toNat ++ compressFrom capacity U buf' [] ∧
      t.nextCode.toNat = min (s.nextCode.toNat + (runCodes rs).length) capacity ∧ (d ≠ [] → t.bufValid = true) := by
  induction d generalizing s T buf with
  | nil =>
    obtain ⟨-, hmax, hcap⟩ := h.nextCode_range
    exact ⟨[], s, T, buf, .nil, h, nofun, rfl, (min_eq_left (hcap ▸ hmax)).symm, nofun⟩
  | cons b d ih =>
    have h' := h.withStreams (issue (d.map .encByte) ++ evs) s.output
    obtain ⟨u, r, V, buf₁, hr, hst, hu, hround⟩ := h'.encByte b
    obtain ⟨hnext, hvalid⟩ := h'.encByte_learns hr
    obtain ⟨rs, t, U, buf', hrun, ht, hok, hcodes, hcount, hbuf⟩ := ih hu hr.frame.1
    have hnext' : u.nextCode.toNat = min (s.nextCode.toNat + r.codes.length) capacity := hnext
    refine ⟨r :: rs, t, U, buf', .cons h.table.legal hs hr hrun, ht, List.forall_mem_cons.mpr ⟨hst, hok⟩, ?_, ?_,
      fun _ => ?_⟩
    · rw [hround, hcodes, runCodes_cons, List.map_append, List.append_assoc]
    · rw [hcount, hnext', runCodes_cons, List.length_append]
      omega
    · cases d with
      | nil => cases hrun; exact hvalid
      | cons => exact hbuf (by simp)

end Encoding

/-- `ENC_START` answers `OK` and no code (R131). -/
theorem Responds.encStart (hr : Responds .encStart s r t) : r.status = .ok ∧ r.codes = [] := by
  obtain ⟨hexec, hout⟩ := hr
  obtain ⟨-, -, -, hstart⟩ := resetAndStartCommands
  obtain ⟨-, henc, -⟩ := hstart s
  obtain rfl := Host.Outcome.next.inj (henc.symm.trans hexec)
  obtain ⟨rfl, -⟩ := List.cons.inj (List.append_cancel_left hout)
  exact ⟨rfl, rfl⟩

/-- `ENC_START` and the bytes of a run, from any state with legal parameters (R131, R132). -/
theorem performs_start_bytes (hp : s.params.Legal) (hs : s.input = issue (.encStart :: d.map .encByte) ++ evs) :
    ∃ rs t U buf, Performs (.encStart :: d.map .encByte) rs s t ∧ Encoding s.params.capacity.toNat t U buf ∧
      (∀ r ∈ rs, r.status = .ok) ∧
      compress s.params.capacity.toNat d =
        (runCodes rs).map BitVec.toNat ++ compressFrom s.params.capacity.toNat U buf [] ∧
      t.nextCode.toNat = min (256 + (runCodes rs).length) s.params.capacity.toNat ∧ (d ≠ [] → t.bufValid = true) := by
  obtain ⟨u, r, hr, hu⟩ := encStart_encoding (s := s.withStreams (issue (d.map .encByte) ++ evs) s.output) hp rfl
  obtain ⟨hst, hnone⟩ := hr.encStart
  obtain ⟨rs, t, U, buf, hrun, ht, hok, hcodes, hcount, hbuf⟩ := hu.performs_bytes hr.frame.1
  have hall : runCodes (r :: rs) = runCodes rs := by simp [hnone]
  obtain ⟨hseeds, -⟩ := hu.nextCode_range
  rw [StringTable.seeds_length] at hseeds
  refine ⟨r :: rs, t, U, buf, .cons hp hs hr hrun, ht, List.forall_mem_cons.mpr ⟨hst, hok⟩, ?_, ?_, hbuf⟩
  · rw [hall]
    exact hcodes
  · rw [hall, ← hseeds]
    exact hcount

/-- `ENC_FLUSH` ends the run in `IDLE`, and emits the code of the buffer (R133). -/
theorem Responds.encFlush (hr : Responds .encFlush s r t) (hf : s.fsm = .encRun) :
    t.fsm = .idle ∧ r.codes = if s.bufValid then [s.bufCode] else [] := by
  obtain ⟨hexec, hout⟩ := hr
  obtain rfl := finish_eq_next.mp ((exec_encFlush hf rfl).symm.trans hexec)
  obtain ⟨rfl, -⟩ := List.cons.inj (List.append_cancel_left hout)
  exact ⟨rfl, rfl⟩

/-- The flush of a run that has taken its bytes. -/
theorem Encoding.performs_flush (h : Encoding capacity s T buf) (hs : s.input = issue [.encFlush] ++ evs) :
    ∃ t r, Performs [.encFlush] [r] s t ∧ t.fsm = .idle ∧ r.status = .ok ∧
      r.codes.map BitVec.toNat = compressFrom capacity T buf [] ∧ (s.bufValid = true → r.codes.length = 1) := by
  obtain ⟨t, r, hr, hst, hcodes⟩ := (h.withStreams evs s.output).encFlush
  obtain ⟨hidle, hemit⟩ := hr.encFlush h.fsm_eq
  exact ⟨t, r, .cons h.table.legal hs hr .nil, hidle, hst, hcodes, fun hv => hemit ▸ congrArg List.length (if_pos hv)⟩

/-- What is observed of a run all of whose commands are answered `OK` is the codes of its responses (R245). -/
theorem Performs.observe_compress {rs : List Response} (h : Performs (compressCommands d) rs s t)
    (hok : ∀ r ∈ rs, r.status = .ok) :
    observe (transcript (compressCommands d).length s) = some (.encoded (runCodes rs) .ok) := by
  rw [h.transcript_eq]
  rw [show compressCommands d = .encStart :: (d.map .encByte ++ [.encFlush]) from rfl] at h ⊢
  cases h with
  | cons _ _ hstart hrest =>
    obtain ⟨-, hok⟩ := List.forall_mem_cons.mp hok
    obtain ⟨-, hnone⟩ := hstart.encStart
    have hend := hrest.runUntil_exchanges (by simp [IsTableReset]) rfl hok
    rw [exchanges_cons, observe_encStart hend, hrest.codesOf_exchanges, runCodes_cons, hnone, List.nil_append]

end Bytes

/-- Settles O51: each byte is one round of the loop of `compress`, and the flush is its end. -/
theorem encodeRunIsCompress : Obligations.EncodeRunIsCompress := by
  intro s d rest hp
  have hissue : issue (compressCommands d) ++ rest =
      issue (.encStart :: d.map .encByte) ++ (issue [.encFlush] ++ rest) := by simp [compressCommands, issue]
  have hlen : (compressCommands d).length = d.length + 2 := by simp [compressCommands]
  obtain ⟨rs, u, U, buf, hstart, hu, hok, hcodes, -⟩ :=
    performs_start_bytes (s := s.withStreams (issue (compressCommands d) ++ rest) s.output) hp hissue
  obtain ⟨t, r, hflush, hidle, hst, hlast, -⟩ := hu.performs_flush (hstart.frame hissue).1
  have hrun : Performs (compressCommands d) (rs ++ [r]) _ t := hstart.append hflush
  have hall : ∀ q ∈ rs ++ [r], q.status = .ok := List.forall_mem_append.mpr ⟨hok, List.forall_mem_singleton.mpr hst⟩
  obtain ⟨hin, hparams⟩ := hrun.frame rfl
  rw [← hlen]
  refine ⟨t, rs ++ [r], hrun.steps_eq, hin, hidle, hparams, hrun.output_eq, hall, hrun.observe_compress hall, ?_⟩
  calc (runCodes (rs ++ [r])).map BitVec.toNat
      = (runCodes rs).map BitVec.toNat ++ r.codes.map BitVec.toNat := by simp
    _ = compress s.params.capacity.toNat d := by rw [hlast]; exact hcodes.symm

/-- Settles O56: every code but that of the flush comes with one learn attempt. -/
theorem learnsAreOneFewerThanCodes : Obligations.LearnsAreOneFewerThanCodes := by
  intro s d hp hd
  have hissue : issue (compressCommands d) = issue (.encStart :: d.map .encByte) ++ issue [.encFlush] := by
    simp [compressCommands, issue]
  have hlen : (Instr.encStart :: d.map .encByte).length = d.length + 1 := by simp
  obtain ⟨rs, t, U, buf, hstart, ht, -, -, hcount, hvalid⟩ :=
    performs_start_bytes (s := s.withStreams (issue (compressCommands d)) s.output) hp hissue
  obtain ⟨hin, -⟩ := hstart.frame hissue
  obtain ⟨t', r, hflush, -, -, -, hone⟩ := ht.performs_flush (evs := []) hin
  have hm : (runCodes (rs ++ [r])).length = (runCodes rs).length + 1 := by
    simpa using hone (hvalid hd)
  have hcap : 256 ≤ s.params.capacity.toNat := hp.1
  have hcount' : t.nextCode.toNat = min (256 + (runCodes rs).length) s.params.capacity.toNat := hcount
  refine ⟨t, rs ++ [r], t', hlen ▸ hstart.steps_eq, hin, hflush.step_eq,
    (hstart.append hflush).output_eq, by omega, by omega⟩

end Sys2Proof.Machine

/-! The decoder commands, one by one (42_decoder.md). -/

namespace Sys2Proof.Machine

section Failures

/-- The value of a failure, as the number that the cause and the code make (R80). -/
theorem invalidStreamValue_eq (cause : ErrCause) (c : Code) :
    invalidStreamValue cause c = BitVec.ofNat 32 (cause.bits.toNat * 2 ^ 16 + c.toNat) := by
  rw [← invalidStreamValue_toNat, BitVec.ofNat_toNat, BitVec.setWidth_eq]

/-- The failure entry leaves `failedState` (R203). -/
theorem raiseInvalidStream_eq (s : State) (cause : ErrCause) (c : Code) :
    raiseInvalidStream s cause c = .next (failedState s cause c) := by
  rw [raiseInvalidStream, invalidStreamValue_eq]
  rfl

/-- The sticky response (R205). -/
theorem repeatFailure_eq (s : State) :
    repeatFailure s = .next { s with output := s.output ++ [failureResponse s.errCause s.errCode] } := by
  rw [repeatFailure, invalidStreamValue_eq]
  rfl

theorem exec_decEnd_stateError {s : State} (hf : s.fsm = .idle ∨ s.fsm = .encRun) :
    exec .decEnd s = cmdError s .stateError := by
  obtain hf | hf := hf <;> simp [exec, execDecEnd, guarded, hf, legalIn]

end Failures

/-- Settles O33: 255 is the last seed. -/
theorem firstCodeMustBeASeed : Obligations.FirstCodeMustBeASeed := by
  intro s c hf
  rw [exec_decCode_of_decFirst hf, decodeFirst]
  refine ⟨fun hc => ?_, fun hc => ?_⟩
  · rw [if_pos hc]
    rfl
  · rw [if_neg (Nat.not_lt.mpr hc), raiseInvalidStream_eq]

/-- Settles O38, one clause per state of the FSM. -/
theorem endOfTheCodeStream : Obligations.EndOfTheCodeStream := by
  refine ⟨rfl, fun s => ⟨exec_decEnd_stateError, exec_decEnd_of_decFirst, fun hf => ?_, exec_decEnd_of_decRun⟩⟩
  rw [exec_decEnd_of_decFailed hf, returnFromFailure, repeatFailure_eq]

/-! ### The later codes of a run (R152, R153, R157, R162) -/

section Next

variable {s : State} {c : Code}

theorem decodeNext_present {e : List Byte} (hc : strOf s c.toNat = some e) :
    decodeNext s c = decodeEntry s c false e := by
  have hp : c.toNat < s.nextCode.toNat := present_of_strOf hc
  rw [decodeNext, if_pos (by simpa using hp), hc]
  rfl

/-- The next code is repaired, unless `PREV_EXT` would have to count it and is full (R158). -/
theorem decodeNext_next (hc : c.toNat = s.nextCode.toNat) :
    decodeNext s c = if extensionFull s c then raiseInvalidStream s .extOverflow c
      else withString s.prevCode.toNat (repairEntry s) (decodeEntry s c true) := by
  rw [decodeNext, if_neg (by simp [hc]), if_pos (BitVec.eq_of_toNat_eq (by simpa using hc))]

theorem decodeNext_unknown (hc : s.nextCode.toNat < c.toNat) :
    decodeNext s c = raiseInvalidStream s .unknownCode c := by
  rw [decodeNext, if_neg (by simpa using hc.le), if_neg fun heq => by simp [← heq] at hc]

/-- Only a code that gets no entry is counted in `PREV_EXT` (R157, R158). -/
theorem extensionFull_eq_true :
    extensionFull s c = true ↔ s.params.capacity.toNat ≤ c.toNat ∧ s.prevExt.toNat = 2 ^ 32 - 1 := by
  simp [extensionFull, BitVec.toNat_eq]

/-- The repair of a next code that is not at the bound of R158. -/
theorem exec_decCode_repair (hf : s.fsm = .decRun) (hc : c.toNat = s.nextCode.toNat) {e : List Byte}
    (he : repairEntry s = some e) (hfull : ¬ (s.params.capacity.toNat ≤ c.toNat ∧ s.prevExt.toNat = 2 ^ 32 - 1)) :
    exec (.decCode c) s = decodeEntry s c true e := by
  rw [exec_decCode_of_decRun hf, decodeNext_next hc, if_neg (mt extensionFull_eq_true.mp hfull), he]
  rfl

end Next

/-- Settles O37, which is the last case of `DEC_CODE`. -/
theorem codeAboveNextFails : Obligations.CodeAboveNextFails := by
  intro s c hf hc
  rw [exec_decCode_of_decRun hf, decodeNext_unknown hc, raiseInvalidStream_eq]

/-- Settles O34: a present code has a string, and the insertion its own laws. -/
theorem presentCodeIsOutputAndLearned : Obligations.PresentCodeIsOutputAndLearned := by
  intro s c h hf hc
  obtain ⟨ht, -⟩ := inv_iff.mp h
  obtain ⟨x, y, hstr, -⟩ := firstOf_defined h.linked hc
  have hexec := (exec_decCode_of_decRun hf c).trans (decodeNext_present hstr)
  rw [decodeEntry_take (.inl rfl)] at hexec
  refine ⟨x, y, _, hstr, hexec, insertEntry_inserted ht s.prevCode x, ?_⟩
  rw [insertEntry_frame]
  rfl

/-- Settles O35: below capacity `PREV_EXT` is 0, so the repaired entry is the string that the insertion learns. -/
theorem repairedEntryIsLearnedAtItsCode : Obligations.RepairedEntryIsLearnedAtItsCode := by
  intro s c h hf hc hfree
  obtain ⟨ht, -⟩ := inv_iff.mp h
  have hlt := ht.lt_capacity_of_ne hfree
  have hp : s.Present s.prevCode.toNat := h.previous_present (.inr (.inl hf))
  obtain ⟨x, y, hstr, -, -, hentry⟩ := repairEntry_defined h.linked hp
  have hentry : repairEntry s = some (x :: (y ++ [x])) := by simpa [h.extension_zero hf hfree] using hentry
  have hexec := exec_decCode_repair hf hc hentry (by omega)
  rw [decodeEntry_take (.inr (by omega))] at hexec
  refine ⟨x, y, _, hstr, hexec, insertEntry_inserted ht s.prevCode x, ?_, ?_⟩
  · rw [insertEntry_frame]
    rfl
  · rw [hc]
    exact strOf_insertEntry_new h.linked h.next_range.1 hlt hp x hstr

/-- Settles O36: on a frozen table the repaired code is at capacity, so `PREV_EXT` has to count it. -/
theorem frozenRepairCountsOrOverflows : Obligations.FrozenRepairCountsOrOverflows := by
  intro s c h hf hfull hc
  have hn : c.toNat = s.nextCode.toNat := by rw [hfull, hc]
  obtain ⟨x, y, hstr, -, -, hentry⟩ := repairEntry_defined h.linked (h.previous_present (.inr (.inl hf)))
  refine ⟨x, y, hstr, fun hext => ?_, fun hext => ?_⟩
  · rw [exec_decCode_repair hf hn hentry (by omega)]
    exact decodeEntry_count hc.ge (by rw [hfull])
  · rw [exec_decCode_of_decRun hf, decodeNext_next hn, if_pos (extensionFull_eq_true.mpr ⟨hc.ge, hext⟩),
      raiseInvalidStream_eq]

end Sys2Proof.Machine

/-! The string-level encoder and decoder in lock-step (R137, R160, R161). -/

namespace Sys2Proof.Machine

/-- The table of `compressFrom` when it has taken every byte, before its flush (R137). -/
def compressTableFrom (capacity : Nat) (T : StringTable) (buf : List Byte) : List Byte → StringTable
  | []     => T
  | b :: d =>
    if (T.lookup (buf ++ [b])).isSome then compressTableFrom capacity T (buf ++ [b]) d
    else compressTableFrom capacity (T.learn capacity (buf ++ [b])) [b] d

/-- The table of `decompressFrom` when it has taken every code, or at its failure (R160). -/
def decompressTableFrom (capacity : Nat) (T : StringTable) (prev : List Byte) : List Nat → StringTable
  | []      => T
  | c :: cs =>
    match entryOf T prev c with
    | none   => T
    | some e => decompressTableFrom capacity (T.learn capacity (prev ++ e.take 1)) e cs

/-- The table of `decompress` when it has taken every code, or at its failure (R160). -/
def decompressTable (capacity : Nat) (cs : List Nat) : StringTable :=
  match cs with
  | []      => StringTable.seeds
  | c :: cs =>
    match StringTable.seeds.resolve c with
    | none   => StringTable.seeds
    | some e => decompressTableFrom capacity StringTable.seeds e cs

namespace StringTable

variable {capacity : Nat} {T : StringTable} {str : List Byte}

theorem lookup_of_mem (h : str ∈ T) : ∃ k, T.lookup str = some k ∧ T[k]? = some str := by
  obtain ⟨k, hk⟩ := Option.ne_none_iff_exists'.mp (mt lookup_eq_none.mp (not_not_intro h))
  obtain ⟨hget, -⟩ := lookup_eq_some.mp hk
  exact ⟨k, hk, hget⟩

theorem mem_of_lookup (h : (T.lookup str).isSome) : str ∈ T := by
  by_contra hne
  simp [lookup_eq_none.mpr hne] at h

/-- Learning forgets nothing. -/
theorem mem_learn {x : List Byte} (h : x ∈ T) : x ∈ T.learn capacity str := by
  unfold learn
  split
  · exact List.mem_append_left _ h
  · exact h

theorem mem_seeds (b : Byte) : [b] ∈ seeds := by
  have h := seeds_getElem? b.isLt
  rw [BitVec.ofNat_toNat, BitVec.setWidth_eq] at h
  exact List.mem_of_getElem? h

/-- A code that is new after learning is the next one, and holds what was learned. -/
theorem learn_getElem? {k : Nat} {x : List Byte} (h : (T.learn capacity str)[k]? = some x) :
    T[k]? = some x ∨ k = T.length ∧ str = x := by
  unfold learn at h
  split at h
  · rw [List.getElem?_append] at h
    split at h
    · exact .inl h
    · obtain ⟨hk, hx⟩ := List.getElem?_eq_some_iff.mp h
      simp only [List.length_singleton, List.getElem_singleton] at hk hx
      exact .inr ⟨by omega, hx⟩
  · exact .inl h

end StringTable

section LockStep

variable {capacity : Nat} {T U : StringTable} {prev buf : List Byte}

/-- The decoder is one entry behind: the entry it lacks is the previous string with the first byte of the buffer. A
buffer that is this entry begins with the first byte of the previous string, so the repair of R153 gives it (R161). -/
theorem entryOf_behind (hprev : prev ≠ []) (hU : T.learn capacity (prev ++ buf.take 1) = U) (hmem : buf ∈ U) :
    ∃ k, U.lookup buf = some k ∧ entryOf T prev k = some buf := by
  obtain ⟨k, hlook, hk⟩ := StringTable.lookup_of_mem hmem
  refine ⟨k, hlook, ?_⟩
  obtain hk | ⟨rfl, hbuf⟩ := StringTable.learn_getElem? (hU ▸ hk)
  · simp [entryOf, StringTable.resolve, hk]
  · obtain ⟨x, y, rfl⟩ := List.exists_cons_of_ne_nil hprev
    have hhead : buf.take 1 = [x] := by
      rw [← hbuf]
      rfl
    rw [hhead] at hbuf
    simp [entryOf, StringTable.resolve, ← hbuf]

/-- The decoder, one entry behind, decodes what the encoder emits from here on, the buffer and the rest of the input,
and ends with the encoder's table (R161). -/
theorem lockStep (hprev : prev ≠ []) (hbuf : buf ≠ []) (hseeds : ∀ b, [b] ∈ T)
    (hU : T.learn capacity (prev ++ buf.take 1) = U) (hmem : buf ∈ U) (d : List Byte) :
    decompressFrom capacity T prev (compressFrom capacity U buf d) = some (buf ++ d) ∧
      decompressTableFrom capacity T prev (compressFrom capacity U buf d) = compressTableFrom capacity U buf d := by
  induction d generalizing T prev buf U with
  | nil =>
    obtain ⟨k, hlook, he⟩ := entryOf_behind hprev hU hmem
    simp [compressFrom, compressTableFrom, decompressFrom, decompressTableFrom, hbuf, hlook, he, hU]
  | cons b d ih =>
    cases hnew : U.lookup (buf ++ [b]) with
    | some j =>
      have htake : (buf ++ [b]).take 1 = buf.take 1 :=
        List.take_append_of_le_length (List.length_pos_iff.mpr hbuf)
      have hgrown := ih (buf := buf ++ [b]) hprev (by simp) hseeds (htake.symm ▸ hU)
        (StringTable.mem_of_lookup (by rw [hnew]; rfl))
      simpa [compressFrom, compressTableFrom, hnew] using hgrown
    | none =>
      obtain ⟨k, hlook, he⟩ := entryOf_behind hprev hU hmem
      have hseeds' (b : Byte) : [b] ∈ U := hU ▸ StringTable.mem_learn (hseeds b)
      obtain ⟨hout, htable⟩ := ih (U := U.learn capacity (buf ++ [b])) (buf := [b]) hbuf (by simp) hseeds' rfl
        (StringTable.mem_learn (hseeds' b))
      simp [compressFrom, compressTableFrom, decompressFrom, decompressTableFrom, hnew, hlook, he, hU, hout, htable]

/-- The first code of a run is of a seed, and from then on the decoder is one entry behind (R161). -/
theorem lockStep_seeds (hbuf : buf ≠ []) (hmem : buf ∈ StringTable.seeds) (d : List Byte) :
    decompress capacity (compressFrom capacity StringTable.seeds buf d) = some (buf ++ d) ∧
      decompressTable capacity (compressFrom capacity StringTable.seeds buf d) =
        compressTableFrom capacity StringTable.seeds buf d := by
  induction d generalizing buf with
  | nil =>
    obtain ⟨k, hlook, hk⟩ := StringTable.lookup_of_mem hmem
    simp [compressFrom, compressTableFrom, decompress, decompressTable, decompressFrom, decompressTableFrom,
      StringTable.resolve, hbuf, hlook, hk]
  | cons b d ih =>
    cases hnew : StringTable.seeds.lookup (buf ++ [b]) with
    | some j =>
      have hgrown := ih (buf := buf ++ [b]) (by simp) (StringTable.mem_of_lookup (by rw [hnew]; rfl))
      simpa [compressFrom, compressTableFrom, hnew] using hgrown
    | none =>
      obtain ⟨k, hlook, hk⟩ := StringTable.lookup_of_mem hmem
      obtain ⟨hout, htable⟩ := lockStep (U := StringTable.seeds.learn capacity (buf ++ [b])) (buf := [b]) hbuf (by simp)
        StringTable.mem_seeds rfl (StringTable.mem_learn (StringTable.mem_seeds b)) d
      simp [compressFrom, compressTableFrom, decompress, decompressTable, StringTable.resolve, hnew, hlook, hk, hout,
        htable]

/-- The first byte is found at its seed (R136). -/
theorem compressFrom_first (b : Byte) (d : List Byte) :
    compress capacity (b :: d) = compressFrom capacity StringTable.seeds [b] d ∧
      compressTableFrom capacity StringTable.seeds [] (b :: d) =
        compressTableFrom capacity StringTable.seeds [b] d := by
  obtain ⟨k, hlook, -⟩ := StringTable.lookup_of_mem (StringTable.mem_seeds b)
  simp [compress, compressFrom, compressTableFrom, hlook]

/-- `decompress` of what `compress` emits for a string that is not empty, with the two tables (R161). -/
theorem decompress_compress {d : List Byte} (hd : d ≠ []) :
    decompress capacity (compress capacity d) = some d ∧
      decompressTable capacity (compress capacity d) = compressTableFrom capacity StringTable.seeds [] d := by
  obtain ⟨b, d, rfl⟩ := List.exists_cons_of_ne_nil hd
  obtain ⟨hcodes, htable⟩ := compressFrom_first b d (capacity := capacity)
  rw [hcodes, htable]
  exact lockStep_seeds (by simp) (StringTable.mem_seeds b) d

/-- Each byte emits at most one code, and the flush one more (R132, R133). -/
theorem compressFrom_length_le (d : List Byte) : (compressFrom capacity T buf d).length ≤ d.length + 1 := by
  have hone (o : Option Nat) : o.toList.length ≤ 1 := by cases o <;> simp
  induction d generalizing T buf with
  | nil =>
    simp only [compressFrom]
    split
    · simp
    · exact hone _
  | cons b d ih =>
    simp only [compressFrom]
    split
    · exact (ih ..).trans (by simp)
    · have hrest := ih (T := T.learn capacity (buf ++ [b])) (buf := [b])
      have hemit := hone (T.lookup buf)
      simp only [List.length_append, List.length_cons]
      omega

/-- A string has no more codes than bytes. -/
theorem compress_length_le (d : List Byte) : (compress capacity d).length ≤ d.length := by
  cases d with
  | nil => simp [compress, compressFrom]
  | cons b d =>
    obtain ⟨hcodes, -⟩ := compressFrom_first (capacity := capacity) b d
    rw [hcodes]
    exact compressFrom_length_le d

end LockStep

/-- Settles O54: the decoder runs one entry behind the encoder, and repairs the entry it lacks. -/
theorem decompressInvertsCompress : Obligations.DecompressInvertsCompress := by
  intro capacity d _
  refine ⟨fun hd => ?_, rfl, rfl⟩
  obtain ⟨hout, -⟩ := decompress_compress (capacity := capacity) hd
  exact hout

end Sys2Proof.Machine

/-! Whole decode runs, and a decoder beside an encoder (R160, R161, R245). -/

namespace Sys2Proof.Machine

/-! ### The codes of a decode run -/

section Codes

variable {capacity : Nat} {s t u : State} {T U : StringTable} {prev : List Byte} {out : Option (List Byte)}
  {cs : List Code} {rs : List Response} {evs : List HostEvent} {q r : Response}

/-- The codes of a decode run have been answered `rs` and the block is left in `t`, where the string-level decoder
answers `out` and has the table `U`: the run has output the same bytes and has the same table, or it has failed or taken
no code (R160). -/
def AfterCodes (capacity : Nat) (U : StringTable) (rs : List Response) (t : State) : Option (List Byte) → Prop
  | some d => rs.flatMap (·.data) = d ∧ (∀ r ∈ rs, r.status = .ok) ∧ ∃ prev, Decoding capacity t U prev
  | none   => t.fsm = .decFirst ∨ t.fsm = .decFailed

/-- A `DEC_CODE` that is answered `OK` adds its data. -/
theorem AfterCodes.cons (h : AfterCodes capacity U rs t out) (hst : r.status = .ok) :
    AfterCodes capacity U (r :: rs) t (out.map (r.data ++ ·)) := by
  cases out with
  | none => exact h
  | some d =>
    obtain ⟨rfl, hok, hdec⟩ := h
    exact ⟨rfl, List.forall_mem_cons.mpr ⟨hst, hok⟩, hdec⟩

/-- A failed run takes every further code and stays failed (R205). -/
theorem Failed.performs_codes (h : Failed s) (hs : s.input = issue (cs.map .decCode) ++ evs) :
    ∃ rs t, Performs (cs.map .decCode) rs s t ∧ Failed t := by
  induction cs generalizing s with
  | nil => exact ⟨[], s, .nil, h⟩
  | cons c cs ih =>
    obtain ⟨u, r, hr, hu⟩ := (h.withStreams (issue (cs.map .decCode) ++ evs) s.output).decCode c
    obtain ⟨rs, t, hrun, ht⟩ := ih hu hr.frame.1
    exact ⟨r :: rs, t, .cons h.legal hs hr hrun, ht⟩

/-- A code at which the run fails, and the codes after it (R203, R205). -/
theorem performs_failing {c : Code} (hp : s.params.Legal) (hs : s.input = issue ((c :: cs).map .decCode) ++ evs)
    (h : ∃ u r, Responds (.decCode c) (s.withStreams (issue (cs.map .decCode) ++ evs) s.output) r u ∧ Failed u) :
    ∃ rs t, Performs ((c :: cs).map .decCode) rs s t ∧ AfterCodes capacity U rs t none := by
  obtain ⟨u, r, hr, hu⟩ := h
  obtain ⟨rs, t, hrun, ht⟩ := hu.performs_codes hr.frame.1
  exact ⟨r :: rs, t, .cons hp hs hr hrun, .inr ht.fsm_eq⟩

/-- The codes after the first are rounds of the loop of `decompress`, short of the bound of R158. -/
theorem Decoding.performs_codes (h : Decoding capacity s T prev) (hs : s.input = issue (cs.map .decCode) ++ evs)
    (hext : s.prevExt.toNat + cs.length < 2 ^ 32) :
    ∃ rs t, Performs (cs.map .decCode) rs s t ∧
      AfterCodes capacity (decompressTableFrom capacity T prev (cs.map BitVec.toNat)) rs t
        (decompressFrom capacity T prev (cs.map BitVec.toNat)) := by
  induction cs generalizing s T prev with
  | nil => exact ⟨[], s, .nil, rfl, nofun, prev, h⟩
  | cons c cs ih =>
    rw [List.length_cons] at hext
    have h' := h.withStreams (issue (cs.map .decCode) ++ evs) s.output
    rw [List.map_cons (f := BitVec.toNat), decompressFrom, decompressTableFrom]
    cases he : entryOf T prev c.toNat with
    | none => exact performs_failing h.table.legal hs (h'.decCode_unknown (entryOf_eq_none he))
    | some e =>
      obtain ⟨u, r, hr, hst, rfl, hcount, hu⟩ := h'.decCode he (by show s.prevExt.toNat + 1 < _; omega)
      obtain ⟨rs, t, hrun, ht⟩ := ih hu hr.frame.1 (by have : _ ≤ s.prevExt.toNat + 1 := hcount; omega)
      exact ⟨r :: rs, t, .cons h.table.legal hs hr hrun, ht.cons hst⟩

/-- All the codes of a run, from before the first. -/
theorem Fresh.performs_codes (h : Fresh capacity s) (hs : s.input = issue (cs.map .decCode) ++ evs)
    (hlen : cs.length < 2 ^ 32) :
    ∃ rs t, Performs (cs.map .decCode) rs s t ∧
      AfterCodes capacity (decompressTable capacity (cs.map BitVec.toNat)) rs t
        (decompress capacity (cs.map BitVec.toNat)) := by
  cases cs with
  | nil => exact ⟨[], s, .nil, .inl h.fsm_eq⟩
  | cons c cs =>
    rw [List.length_cons] at hlen
    have h' := h.withStreams (issue (cs.map .decCode) ++ evs) s.output
    rw [List.map_cons (f := BitVec.toNat), decompress, decompressTable]
    cases he : StringTable.seeds.resolve c.toNat with
    | none => exact performs_failing h.table.legal hs (h'.decCode_notSeed he)
    | some e =>
      obtain ⟨u, r, hr, hst, rfl, hzero, hu⟩ := h'.decCode he
      obtain ⟨rs, t, hrun, ht⟩ := hu.performs_codes hr.frame.1 (by rw [hzero]; simp; omega)
      exact ⟨r :: rs, t, .cons h.table.legal hs hr hrun, ht.cons hst⟩

/-- `DEC_START` answers `OK` (R151). -/
theorem Responds.decStart (hr : Responds .decStart s r t) : r.status = .ok := by
  obtain ⟨hexec, hout⟩ := hr
  obtain rfl := finish_eq_next.mp hexec
  obtain ⟨rfl, -⟩ := List.cons.inj (List.append_cancel_left hout)
  rfl

/-- `DEC_START` and the codes of a run, from any state with legal parameters (R151, R152). -/
theorem performs_start_codes (hp : s.params.Legal) (hc : s.params.capacity.toNat = capacity)
    (hs : s.input = issue (.decStart :: cs.map .decCode) ++ evs) (hlen : cs.length < 2 ^ 32) :
    ∃ q rs t, Performs (.decStart :: cs.map .decCode) (q :: rs) s t ∧ q.status = .ok ∧
      AfterCodes capacity (decompressTable capacity (cs.map BitVec.toNat)) rs t
        (decompress capacity (cs.map BitVec.toNat)) := by
  obtain ⟨u, q, hr, hu⟩ := decStart_fresh (s := s.withStreams (issue (cs.map .decCode) ++ evs) s.output) hp hc
  obtain ⟨rs, t, hrun, ht⟩ := hu.performs_codes hr.frame.1 hlen
  exact ⟨q, rs, t, .cons hp hs hr hrun, hr.decStart, ht⟩

/-- `DEC_END` ends the run in `IDLE`, with the status of what the codes gave (R154). -/
theorem AfterCodes.performs_end (h : AfterCodes capacity U rs s out) (hp : s.params.Legal)
    (hs : s.input = issue [.decEnd] ++ evs) :
    ∃ t r, Performs [.decEnd] [r] s t ∧ t.fsm = .idle ∧ r.status = out.elim .invalidStream fun _ => .ok := by
  obtain ⟨-, hend⟩ := endOfTheCodeStream
  obtain ⟨-, hfirst, hfailed, hrun⟩ := hend (s.withStreams evs s.output)
  cases out with
  | some d =>
    obtain ⟨-, -, prev, hdec⟩ := h
    exact ⟨_, _, .cons hp hs ⟨hrun hdec.fsm_eq, rfl⟩ .nil, rfl, rfl⟩
  | none =>
    obtain hf | hf := h
    · exact ⟨_, _, .cons hp hs ⟨hfirst hf, rfl⟩ .nil, rfl, rfl⟩
    · exact ⟨_, _, .cons hp hs ⟨hfailed hf, rfl⟩ .nil, rfl, rfl⟩

/-! ### What is observed of the run (R245) -/

/-- The run ends at the response to its `DEC_END`, and its bytes are those of the responses to its codes. -/
theorem Performs.runUntil_codes (h : Performs (cs.map .decCode) rs s t) (r : Response) :
    ∃ run, runUntil .decEnd (exchanges (cs.map .decCode ++ [.decEnd]) (rs ++ [r])) = some (run, r.status) ∧
      runBytes run = rs.flatMap (·.data) := by
  induction cs generalizing s rs with
  | nil =>
    cases h
    exact ⟨_, runUntil_end (answered_command r (decode_encode rfl)) [], by simp [bytes_command]⟩
  | cons c cs ih =>
    obtain _ | ⟨_, _, _, hrest⟩ := h
    obtain ⟨run, hrun, hbytes⟩ := ih hrest
    refine ⟨_ :: run, ?_, by rw [runBytes_cons, bytes_command, if_pos ⟨c, rfl⟩, hbytes]; rfl⟩
    rw [List.map_cons, List.cons_append, List.cons_append, exchanges_cons,
      runUntil_command (by simp) (by simp [IsTableReset]), hrun]
    rfl

/-- What is observed of a decode run is the data of the responses to its codes, and the status of the last response. -/
theorem Performs.observe_decompress (h : Performs (.decStart :: cs.map .decCode) (q :: rs) s u)
    (hend : Performs [.decEnd] [r] u t) :
    observe (transcript (decompressCommands cs).length s) = some (.decoded (rs.flatMap (·.data)) r.status) := by
  have hall : Performs (decompressCommands cs) (q :: rs ++ [r]) s t := h.append hend
  obtain _ | ⟨_, _, _, hcodes⟩ := h
  obtain ⟨run, hrun, hbytes⟩ := hcodes.runUntil_codes r
  rw [hall.transcript_eq, ← hbytes]
  exact observe_decStart hrun

theorem decompressCommands_length (cs : List Code) : (decompressCommands cs).length = cs.length + 2 := by
  simp [decompressCommands]

/-- A whole decode run, from any state with legal parameters (R151, R154, R160). -/
theorem performs_decompress (hp : s.params.Legal) (hc : s.params.capacity.toNat = capacity)
    (hs : s.input = issue (decompressCommands cs) ++ evs) (hlen : cs.length < 2 ^ 32) :
    ∃ rs u r t, Performs (.decStart :: cs.map .decCode) rs s u ∧ u.input = issue [.decEnd] ++ evs ∧
      Performs [.decEnd] [r] u t ∧ t.fsm = .idle ∧
      (∀ d, decompress capacity (cs.map BitVec.toNat) = some d →
        observe (transcript (decompressCommands cs).length s) = some (.decoded d .ok) ∧
        (∀ q ∈ rs ++ [r], q.status = .ok) ∧ Represents capacity u (decompressTable capacity (cs.map BitVec.toNat))) ∧
      (decompress capacity (cs.map BitVec.toNat) = none →
        ∃ bytes, observe (transcript (decompressCommands cs).length s) = some (.decoded bytes .invalidStream)) := by
  have hs : s.input = issue (.decStart :: cs.map .decCode) ++ (issue [.decEnd] ++ evs) := by
    simp [hs, decompressCommands, issue]
  obtain ⟨q, rs, u, hstart, hq, hu⟩ := performs_start_codes hp hc hs hlen
  obtain ⟨hin, hparams⟩ := hstart.frame hs
  obtain ⟨t, r, hend, hidle, hst⟩ := hu.performs_end (hparams ▸ hp) hin
  have hobs := hstart.observe_decompress hend
  refine ⟨q :: rs, u, r, t, hstart, hin, hend, hidle, fun d hd => ?_, fun hnone => ?_⟩
  · rw [hd] at hu hst
    obtain ⟨rfl, hok, prev, hdec⟩ := hu
    rw [hst] at hobs
    exact ⟨hobs, List.forall_mem_append.mpr ⟨List.forall_mem_cons.mpr ⟨hq, hok⟩, List.forall_mem_singleton.mpr hst⟩,
      hdec.table⟩
  · rw [hst, hnone] at hobs
    exact ⟨_, hobs⟩

end Codes

/-- Settles O52: each code is one round of the loop of `decompress`, and `DEC_END` tells whether the loop has failed. -/
theorem decodeRunIsDecompress : Obligations.DecodeRunIsDecompress := by
  intro s cs rest hp hlen
  obtain ⟨rs, u, r, t, hstart, -, hend, hidle, hsome, hnone⟩ :=
    performs_decompress (s := s.withStreams (issue (decompressCommands cs) ++ rest) s.output) hp rfl rfl hlen
  have hrun : Performs (decompressCommands cs) (rs ++ [r]) _ t := hstart.append hend
  obtain ⟨hin, hparams⟩ := hrun.frame rfl
  rw [← decompressCommands_length]
  refine ⟨t, rs ++ [r], hrun.steps_eq, hin, hidle, hparams, hrun.output_eq, fun d hd => ?_, hnone⟩
  obtain ⟨hobs, hok, -⟩ := hsome d hd
  exact ⟨hobs, hok⟩

/-! ### The table of an encode run -/

section Table

variable {capacity : Nat} {s t : State} {T : StringTable} {buf d : List Byte} {rs : List Response}
  {b : Byte} {r : Response}

/-- What `ENC_BYTE` leaves, by the outcome of its lookup (R132). -/
theorem Encoding.encByte_cases (h : Encoding capacity s T buf) (hr : Responds (.encByte b) s r t) :
    (T.lookup (buf ++ [b])).isSome ∧ Encoding capacity t T (buf ++ [b]) ∨
      T.lookup (buf ++ [b]) = none ∧ Encoding capacity t (T.learn capacity (buf ++ [b])) [b] := by
  obtain ⟨hexec, -⟩ := hr
  rw [h.exec_encByte] at hexec
  have hfind := h.table.findCode_eq (buf ++ [b])
  cases hk : T.lookup (buf ++ [b]) with
  | some k =>
    obtain ⟨hget, -⟩ := StringTable.lookup_eq_some.mp hk
    have hcode : (BitVec.ofNat 16 k).toNat = k :=
      h.table.toNat_ofNat_code (h.table.present_iff.mp (h.table.present_of_getElem? hget))
    obtain rfl := finish_eq_next.mp ((encodeByte_of_found (hfind.trans hk)).symm.trans hexec)
    exact .inl ⟨rfl, h.table.congr rfl rfl rfl, h.fsm_eq, h.nodup, .inr ⟨rfl, by simp, hcode.symm ▸ hget⟩⟩
  | none =>
    have htable := h.table.learn (fun _ => h.getElem?_bufCode_of_lookup_eq_none hk) b
    have hcode : (b.setWidth 16).toNat = b.toNat := BitVec.toNat_setWidth_of_le (by decide)
    obtain rfl := finish_eq_next.mp ((encodeByte_of_absent (hfind.trans hk)).symm.trans hexec)
    exact .inr ⟨rfl, htable.congr rfl rfl rfl, (insertEntry_fsm ..).trans h.fsm_eq, StringTable.learn_nodup h.nodup hk,
      .inr ⟨rfl, by simp, hcode.symm ▸ htable.getElem?_seed b⟩⟩

/-- When it has taken its bytes, the encoder holds the table of the loop of `compress` (R137). -/
theorem Encoding.represents_of_performs (h : Encoding capacity s T buf) (hrun : Performs (d.map .encByte) rs s t) :
    Represents capacity t (compressTableFrom capacity T buf d) := by
  induction d generalizing s T buf rs with
  | nil =>
    cases hrun
    exact h.table
  | cons b d ih =>
    obtain _ | ⟨_, _, hr, hrest⟩ := hrun
    obtain ⟨hk, hu⟩ | ⟨hk, hu⟩ := (h.withStreams _ s.output).encByte_cases hr
    · simpa [compressTableFrom, hk] using ih hu hrest
    · simpa [compressTableFrom, hk] using ih hu hrest

/-- The bytes of a whole encode run and its flush, from any state with legal parameters (R131, R133, R137). -/
theorem performs_compress (hp : s.params.Legal) (hc : s.params.capacity.toNat = capacity)
    (hs : s.input = issue (compressCommands d)) :
    ∃ rs u r t, Performs (.encStart :: d.map .encByte) rs s u ∧ u.input = issue [.encFlush] ∧
      Performs [.encFlush] [r] u t ∧ (runCodes (rs ++ [r])).map BitVec.toNat = compress capacity d ∧
      Represents capacity u (compressTableFrom capacity StringTable.seeds [] d) := by
  have hs : s.input = issue [.encStart] ++ (issue (d.map .encByte) ++ issue [.encFlush]) := by
    simp [hs, compressCommands, issue]
  obtain ⟨v, q, hr, hv⟩ :=
    encStart_encoding (s := s.withStreams (issue (d.map .encByte) ++ issue [.encFlush]) s.output) hp hc
  obtain ⟨-, hnone⟩ := hr.encStart
  obtain ⟨rs, u, U, buf, hbytes, hu, -, hcodes, -⟩ := hv.performs_bytes hr.frame.1
  obtain ⟨hin, -⟩ := hbytes.frame hr.frame.1
  obtain ⟨t, r, hflush, -, -, hlast, -⟩ := hu.performs_flush (evs := []) hin
  refine ⟨q :: rs, u, r, t, .cons hp hs hr hbytes, hin, hflush, ?_, hv.represents_of_performs hbytes⟩
  calc (runCodes (q :: rs ++ [r])).map BitVec.toNat
      = (runCodes rs).map BitVec.toNat ++ r.codes.map BitVec.toNat := by simp [hnone]
    _ = compress capacity d := by rw [hlast]; exact hcodes.symm

/-- Two machines that hold the same table (R161). -/
theorem Represents.tables_eq {u : State} (hs : Represents capacity s T) (hu : Represents capacity u T) :
    u.nextCode = s.nextCode ∧ ∀ k, strOf u k = strOf s k :=
  ⟨BitVec.eq_of_toNat_eq (hu.length_eq.symm.trans hs.length_eq), fun k => (hu.strOf_eq k).trans (hs.strOf_eq k).symm⟩

end Table

/-- Settles O55: each machine holds the table of its string-level loop, and the two loops are in lock-step. -/
theorem encoderAndDecoderStayInLockStep : Obligations.EncoderAndDecoderStayInLockStep := by
  intro s u d hp hpu hcap hd hlen
  obtain ⟨rs, t, r, t', hbytes, hin, hflush, hcs, htable⟩ :=
    performs_compress (s := s.withStreams (issue (compressCommands d)) s.output) hp rfl rfl
  obtain ⟨hout, htables⟩ := decompress_compress (capacity := s.params.capacity.toNat) hd
  have hlen' : (runCodes (rs ++ [r])).length < 2 ^ 32 := by
    have := compress_length_le (capacity := s.params.capacity.toNat) d
    rw [← List.length_map (as := runCodes (rs ++ [r])) BitVec.toNat, hcs]
    exact this.trans_lt hlen
  obtain ⟨qs, v, q, v', hcodes, hin', hend, -, hsome, -⟩ :=
    performs_decompress (s := u.withStreams (issue (decompressCommands (runCodes (rs ++ [r])))) u.output) hpu
      (congrArg _ hcap) (List.append_nil _).symm hlen'
  rw [hcs] at hsome
  obtain ⟨hobs, hok, htable'⟩ := hsome d hout
  obtain ⟨hnext, hstr⟩ := htable.tables_eq (htables ▸ htable')
  have hencode : (Instr.encStart :: d.map .encByte).length = d.length + 1 := by simp
  have hdecode (cs : List Code) : (Instr.decStart :: cs.map .decCode).length = cs.length + 1 := by simp
  exact ⟨t, rs ++ [r], v, qs ++ [q], t', v', hencode ▸ hbytes.steps_eq, hin, hflush.step_eq,
    (hbytes.append hflush).output_eq, hdecode _ ▸ hcodes.steps_eq, hin', hend.step_eq, (hcodes.append hend).output_eq,
    decompressCommands_length _ ▸ hobs, hok, hnext, hstr⟩

end Sys2Proof.Machine

/-! The status registers (43_status.md). -/

namespace Sys2Proof.Machine

section Registers

variable {s : State} {r : Byte} {v : Value}

/-- The four fields of `STATUS` do not overlap (R36). -/
theorem statusWord_toNat (s : State) :
    (statusWord s).toNat = s.fsm.bits.toNat + 8 * s.err.toNat + 16 * (frozen s).toNat + 32 * s.bufValid.toNat := by
  have hfsm := s.fsm.bits.isLt
  have herr := (BitVec.ofBool s.err).isLt
  have hfrozen := (BitVec.ofBool (frozen s)).isLt
  simp only [statusWord, BitVec.toNat_append]
  rw [← Nat.shiftLeft_add_eq_or_of_lt hfsm, ← Nat.shiftLeft_add_eq_or_of_lt herr,
    ← Nat.shiftLeft_add_eq_or_of_lt hfrozen, ← Nat.shiftLeft_add_eq_or_of_lt (BitVec.ofBool s.bufValid).isLt]
  simp only [Nat.shiftLeft_eq, BitVec.toNat_ofBool, BitVec.toNat_ofNat]
  omega

/-- `FROZEN` is the comparison of `NEXT_CODE` with `CAPACITY` (R27). -/
theorem sixteen_mul_frozen_toNat (s : State) :
    16 * (frozen s).toNat = if s.nextCode = s.params.capacity then 16 else 0 := by
  by_cases h : s.nextCode = s.params.capacity <;> simp [frozen, h]

/-- A read of a register answers its value (R180). -/
theorem exec_regRead (hv : regValue s r.toNat = some v) : exec (.regRead r) s = finish s .ok v [] [] := by
  simp [exec, execRegRead, hv]

/-- A read of a reserved index is rejected (R180, R181). -/
theorem exec_regRead_reserved (hr : 9 < r.toNat) : exec (.regRead r) s = cmdError s .illegalCommand := by
  simp [exec, execRegRead, regValue_eq_none.mpr hr]

/-- Every index up to 9 has a register (R181). -/
theorem exists_regValue (hr : r.toNat ≤ 9) : ∃ v, regValue s r.toNat = some v :=
  Option.ne_none_iff_exists'.mp fun h => hr.not_gt (regValue_eq_none.mp h)

end Registers

/-- Settles O42: the map has a value for each index up to 9, and zero-extension keeps the number of a register. -/
theorem registerReadsFollowTheMap : Obligations.RegisterReadsFollowTheMap := by
  refine fun s r => ⟨fun hr => ?_, exec_regRead_reserved⟩
  obtain ⟨-, -, -, -, -, -, -, -, -, -, -, hword⟩ := encodingsOfEveryOpcode
  obtain ⟨v, hv⟩ := exists_regValue (s := s) hr
  refine ⟨hword r, v, exec_regRead hv, ?status, ?nextCode, ?curWidth, ?capacity, ?maxWidth, ?bufCode, ?prevCode,
    ?prevExt, ?errCause, ?errCode⟩ <;> rintro rfl <;> obtain rfl := Option.some.inj hv
  case status => rw [statusWord_toNat, sixteen_mul_frozen_toNat]
  case prevExt => rfl
  case nextCode | curWidth | capacity | maxWidth | bufCode | prevCode | errCause | errCode =>
    exact BitVec.toNat_setWidth_of_le (by decide)

end Sys2Proof.Machine

/-! Failures and rejections (60_exceptions.md). -/

namespace Sys2Proof.Machine

/-! ### Rejections and the transitions of the FSM (R206 to R210) -/

/-- Where a command is rejected, and with which status (R207, R208, R209). -/
inductive Rejects : Instr → State → Status → Prop where
  | state {i s} (h : StateErrorAt i s.fsm) : Rejects i s .stateError
  | lookup {s p b} (hp : s.nextCode.toNat ≤ p.toNat) : Rejects (.tblLookupPrefix p b) s .operandError
  | learn {s p b} (hf : s.fsm = .idle) (hp : s.nextCode.toNat ≤ p.toNat) : Rejects (.tblLearn p b) s .operandError
  /-- A reserved register, which no command word names (R75, R180). -/
  | register {s r} (hr : 9 < r.toNat) : Rejects (.regRead r) s .illegalCommand

section Rejections

variable {i : Instr} {s u t : State} {r : Response}

/-- A command has one next state and one response. -/
theorem Responds.unique (h : Responds i s r t) {q : Response} (hq : Responds i s q u) : t = u ∧ r = q := by
  obtain ⟨ht, hr⟩ := h
  obtain ⟨hu, ho⟩ := hq
  obtain rfl : t = u := Host.Outcome.next.inj (ht.symm.trans hu)
  exact ⟨rfl, by simpa [hr] using ho⟩

/-- `TBL_LEARN` is illegal outside `IDLE` (R207). -/
theorem legalIn_learn_eq_false {f : FsmState} : legalIn .learn f = false ↔ f ≠ .idle := by cases f <;> decide

/-- The encoder's commands are illegal outside an encode run (R207). -/
theorem legalIn_encode_eq_false {f : FsmState} : legalIn .encode f = false ↔ f ≠ .encRun := by cases f <;> decide

/-- The decoder's commands are illegal in the two states without a decode run (R207). -/
theorem legalIn_decode_eq_false {f : FsmState} : legalIn .decode f = false ↔ f = .idle ∨ f = .encRun := by
  cases f <;> decide

theorem exec_decCode_stateError (hf : s.fsm = .idle ∨ s.fsm = .encRun) (c : Code) :
    exec (.decCode c) s = cmdError s .stateError :=
  if_neg (by simp [legalIn_decode_eq_false.mpr hf])

/-- Every entry `S` of the matrix is a `STATE_ERROR` (R207). -/
theorem exec_stateError (h : StateErrorAt i s.fsm) : exec i s = cmdError s .stateError := by
  cases i with
  | tblLearn p b => exact exec_tblLearn_stateError h p b
  | encByte b => exact exec_encByte_stateError h b
  | encFlush => exact exec_encFlush_stateError h
  | decCode c => exact exec_decCode_stateError h c
  | decEnd => exact exec_decEnd_stateError h
  | tblReset | tblLookup | tblLookupPrefix | tblResolve | encStart | decStart | regRead => exact h.elim

theorem Rejects.exec_eq {st : Status} (h : Rejects i s st) : exec i s = cmdError s st := by
  cases h with
  | state h => exact exec_stateError h
  | lookup hp => exact exec_tblLookupPrefix_absent hp _
  | learn hf hp => exact exec_tblLearn_operandError hf hp _
  | register hr => exact exec_regRead_reserved hr

theorem Rejects.isRejection {st : Status} (h : Rejects i s st) : st.IsRejection := by
  cases h with
  | state => exact .inr (.inl rfl)
  | lookup | learn => exact .inr (.inr rfl)
  | register => exact .inl rfl

/-- A rejection writes nothing but its response (R206). -/
theorem Rejects.responds {st : Status} (h : Rejects i s st) :
    Responds i s { status := st, value := 0, data := [], codes := [] } (respond s st 0 [] []) :=
  ⟨h.exec_eq, rfl⟩

/-- Each response that a result adds to those of `s` rejects the command, or takes the FSM to its state of R210. -/
def RejectsOrMoves (i : Instr) (s : State) (res : Result) : Prop :=
  ∀ t r, res = .next t → t.output = s.output ++ [r] →
    Rejects i s r.status ∨ ¬ r.status.IsRejection ∧ t.fsm = fsmAfter s.fsm i r.status

theorem finish_rejectsOrMoves {st : Status} {v : Value} {d : List Byte} {cs : List Code} (ho : u.output = s.output)
    (hst : st = .ok ∨ st = .notFound ∨ st = .invalidStream) (hf : u.fsm = fsmAfter s.fsm i st) :
    RejectsOrMoves i s (finish u st v d cs) := by
  intro t r ht hr
  obtain rfl := finish_eq_next.mp ht
  obtain rfl : _ = r := by simpa [ho] using hr
  refine .inr ⟨?_, hf⟩
  obtain rfl | rfl | rfl := hst <;> simp [Status.IsRejection]

/-- A command that is performed with `OK`. -/
theorem finish_ok_rejectsOrMoves {v : Value} {d : List Byte} {cs : List Code} (ho : u.output = s.output)
    (hf : u.fsm = fsmAfter s.fsm i .ok) : RejectsOrMoves i s (finish u .ok v d cs) :=
  finish_rejectsOrMoves ho (.inl rfl) hf

theorem cmdError_rejectsOrMoves {st : Status} (h : Rejects i s st) : RejectsOrMoves i s (cmdError s st) := by
  intro t r ht hr
  obtain rfl := cmdError_eq_next.mp ht
  obtain rfl : _ = r := by simpa using hr
  exact .inl h

theorem guarded_rejectsOrMoves {g : Guarded} {body : Result} (hg : legalIn g s.fsm = false → StateErrorAt i s.fsm)
    (h : legalIn g s.fsm = true → RejectsOrMoves i s body) : RejectsOrMoves i s (guarded g s body) := by
  unfold guarded
  split
  case isTrue hl => exact h hl
  case isFalse hl => exact cmdError_rejectsOrMoves (.state (hg (by simpa using hl)))

/-- A string that is not defined gets no response. -/
theorem withString_rejectsOrMoves {k : Nat} {str : Option (List Byte)} {body : List Byte → Result}
    (h : ∀ x, RejectsOrMoves i s (body x)) : RejectsOrMoves i s (withString k str body) := by
  cases str with
  | none => exact nofun
  | some x => exact h x

theorem lookupResponse_rejectsOrMoves {str : List Byte} (hf : ∀ st, fsmAfter s.fsm i st = s.fsm) :
    RejectsOrMoves i s (lookupResponse s str) := by
  unfold lookupResponse
  split
  · exact finish_rejectsOrMoves rfl (.inr (.inl rfl)) (hf _).symm
  · exact finish_ok_rejectsOrMoves rfl (hf _).symm

theorem execTblLookupPrefix_rejectsOrMoves {p : Code} {b : Byte} :
    RejectsOrMoves (.tblLookupPrefix p b) s (execTblLookupPrefix p b s) := by
  unfold execTblLookupPrefix
  split
  case isTrue => exact withString_rejectsOrMoves fun _ => lookupResponse_rejectsOrMoves fun _ => rfl
  case isFalse hp => exact cmdError_rejectsOrMoves (.lookup (by simpa using hp))

/-- The state is checked before the operand (R209). -/
theorem execTblLearn_rejectsOrMoves {p : Code} {b : Byte} : RejectsOrMoves (.tblLearn p b) s (execTblLearn p b s) := by
  have ho : (insertEntry s p b).1.output = s.output := insertEntry_output s p b
  have hf : (insertEntry s p b).1.fsm = s.fsm := insertEntry_fsm s p b
  refine guarded_rejectsOrMoves legalIn_learn_eq_false.mp fun hl => ?_
  split
  case isTrue => split <;> next hins => rw [hins] at ho hf; exact finish_ok_rejectsOrMoves ho hf
  case isFalse hp => exact cmdError_rejectsOrMoves (.learn (legalIn_learn.mp hl) (by simpa using hp))

theorem execTblResolve_rejectsOrMoves {c : Code} : RejectsOrMoves (.tblResolve c) s (execTblResolve c s) := by
  unfold execTblResolve
  split
  · exact withString_rejectsOrMoves fun _ => finish_ok_rejectsOrMoves rfl rfl
  · exact finish_rejectsOrMoves rfl (.inr (.inl rfl)) rfl

theorem execEncByte_rejectsOrMoves {b : Byte} : RejectsOrMoves (.encByte b) s (execEncByte b s) := by
  refine guarded_rejectsOrMoves legalIn_encode_eq_false.mp fun _ => withString_rejectsOrMoves fun buf => ?_
  unfold encodeByte
  split
  · exact finish_ok_rejectsOrMoves rfl rfl
  · exact finish_ok_rejectsOrMoves (insertEntry_output s _ b) (insertEntry_fsm s _ b)

theorem execEncFlush_rejectsOrMoves : RejectsOrMoves .encFlush s (execEncFlush s) :=
  guarded_rejectsOrMoves legalIn_encode_eq_false.mp fun _ => finish_ok_rejectsOrMoves rfl rfl

/-- A failing code takes a run that has not failed to `DEC_FAILED` (R203). -/
theorem raiseInvalidStream_rejectsOrMoves {cause : ErrCause} {c : Code}
    (hf : fsmAfter s.fsm (.decCode c) .invalidStream = .decFailed) :
    RejectsOrMoves (.decCode c) s (raiseInvalidStream s cause c) :=
  finish_rejectsOrMoves rfl (.inr (.inr rfl)) hf.symm

theorem decodeFirst_rejectsOrMoves (hf : s.fsm = .decFirst) {c : Code} :
    RejectsOrMoves (.decCode c) s (decodeFirst s c) := by
  unfold decodeFirst
  split
  case isTrue hc => exact finish_ok_rejectsOrMoves rfl (by simpa [fsmAfter, hf] using hc)
  case isFalse hc => exact raiseInvalidStream_rejectsOrMoves (by simpa [fsmAfter, hf] using hc)

theorem decodeEntry_rejectsOrMoves (hf : s.fsm = .decRun) {c : Code} {repair : Bool} {entry : List Byte} :
    RejectsOrMoves (.decCode c) s (decodeEntry s c repair entry) := by
  cases entry with
  | nil => exact nofun
  | cons x y =>
    have hfsm : (insertEntry s s.prevCode x).1.fsm = fsmAfter s.fsm (.decCode c) .ok := by simp [hf, fsmAfter]
    simp only [decodeEntry]
    split <;> exact finish_ok_rejectsOrMoves (insertEntry_output s _ x) hfsm

/-- A present code, the next code with its repair, and an unknown code (R152, R153, R162). -/
theorem decodeNext_rejectsOrMoves (hf : s.fsm = .decRun) {c : Code} :
    RejectsOrMoves (.decCode c) s (decodeNext s c) := by
  have hfail : fsmAfter s.fsm (.decCode c) .invalidStream = .decFailed := by simp [hf, fsmAfter]
  unfold decodeNext
  split
  · exact withString_rejectsOrMoves fun _ => decodeEntry_rejectsOrMoves hf
  · split
    · split
      · exact raiseInvalidStream_rejectsOrMoves hfail
      · exact withString_rejectsOrMoves fun _ => decodeEntry_rejectsOrMoves hf
    · exact raiseInvalidStream_rejectsOrMoves hfail

theorem execDecCode_rejectsOrMoves {c : Code} : RejectsOrMoves (.decCode c) s (execDecCode c s) := by
  refine guarded_rejectsOrMoves legalIn_decode_eq_false.mp fun hl => ?_
  cases hf : s.fsm <;> simp only [hf, legalIn, Bool.false_eq_true] at hl ⊢
  case decFirst => exact decodeFirst_rejectsOrMoves hf
  case decRun => exact decodeNext_rejectsOrMoves hf
  case decFailed => exact finish_rejectsOrMoves rfl (.inr (.inr rfl)) (by simp [hf, fsmAfter])

theorem execDecEnd_rejectsOrMoves : RejectsOrMoves .decEnd s (execDecEnd s) := by
  refine guarded_rejectsOrMoves legalIn_decode_eq_false.mp fun _ => ?_
  split
  · exact finish_rejectsOrMoves rfl (.inr (.inr rfl)) rfl
  · exact finish_rejectsOrMoves rfl (.inr (.inr rfl)) rfl
  · exact finish_ok_rejectsOrMoves rfl rfl

theorem execRegRead_rejectsOrMoves {q : Byte} : RejectsOrMoves (.regRead q) s (execRegRead q s) := by
  unfold execRegRead
  split
  case h_1 => exact finish_ok_rejectsOrMoves rfl rfl
  case h_2 hv => exact cmdError_rejectsOrMoves (.register (regValue_eq_none.mp hv))

/-- Every command is rejected where `Rejects` says, or takes the FSM to its state of R210. -/
theorem exec_rejectsOrMoves : RejectsOrMoves i s (exec i s) := by
  cases i with
  | tblReset | encStart | decStart => exact finish_ok_rejectsOrMoves rfl rfl
  | tblLookup b => exact lookupResponse_rejectsOrMoves fun _ => rfl
  | tblLookupPrefix p b => exact execTblLookupPrefix_rejectsOrMoves
  | tblLearn p b => exact execTblLearn_rejectsOrMoves
  | tblResolve c => exact execTblResolve_rejectsOrMoves
  | encByte b => exact execEncByte_rejectsOrMoves
  | encFlush => exact execEncFlush_rejectsOrMoves
  | decCode c => exact execDecCode_rejectsOrMoves
  | decEnd => exact execDecEnd_rejectsOrMoves
  | regRead q => exact execRegRead_rejectsOrMoves

/-- A command is answered with a rejection exactly where it is rejected. -/
theorem Responds.rejects_iff (h : Responds i s r t) {st : Status} (hst : st.IsRejection) :
    r.status = st ↔ Rejects i s st := by
  obtain ⟨ht, hr⟩ := h
  constructor
  · rintro rfl
    obtain hrej | ⟨hno, -⟩ := exec_rejectsOrMoves t r ht hr
    · exact hrej
    · exact absurd hst hno
  · intro hrej
    obtain ⟨-, rfl⟩ := Responds.unique ⟨ht, hr⟩ hrej.responds
    rfl

end Rejections

/-- Settles O43: no other rejection has the status. -/
theorem stateErrorExactlyOnTheMatrix : Obligations.StateErrorExactlyOnTheMatrix := by
  intro i s r t h
  rw [h.rejects_iff (.inr (.inl rfl))]
  exact ⟨fun | .state hm => hm, .state⟩

/-- Settles O44: the two rejections that have the status. -/
theorem operandErrorExactlyOnAbsentPrefixes : Obligations.OperandErrorExactlyOnAbsentPrefixes := by
  intro i s r t h
  rw [h.rejects_iff (.inr (.inr rfl))]
  constructor
  · intro hrej
    cases hrej with
    | lookup hp => exact .inl ⟨_, _, rfl, hp⟩
    | learn hf hp => exact .inr ⟨_, _, rfl, hf, hp⟩
  · rintro (⟨p, b, rfl, hp⟩ | ⟨p, b, rfl, hf, hp⟩)
    · exact .lookup hp
    · exact .learn hf hp

/-- Settles O45: the response of a rejected command is `cmd_error`'s. -/
theorem rejectedCommandWritesNothing : Obligations.RejectedCommandWritesNothing := by
  intro i s r t h hst
  obtain ⟨ht, -⟩ := h.unique ((h.rejects_iff hst).mp rfl).responds
  exact ht

/-- Settles O46: a rejected command writes nothing, and any other follows R210. -/
theorem fsmTransitions : Obligations.FsmTransitions := by
  intro i s r t h
  refine ⟨fun hst => ?_, fun hst => ?_⟩
  · rw [rejectedCommandWritesNothing i s r t h hst]
  · obtain ⟨ht, hr⟩ := h
    obtain hrej | ⟨-, hfsm⟩ := exec_rejectsOrMoves t r ht hr
    · exact absurd hrej.isRejection hst
    · exact hfsm

/-! ### The encoder raises no error (R202) -/

/-- Settles O31: with the buffer's string defined, both steps of `ENC_BYTE` answer `OK`. -/
theorem encoderRaisesNoError : Obligations.EncoderRaisesNoError := by
  intro s i h hi
  by_cases hf : s.fsm = .encRun
  case neg =>
    have hexec : exec i s = cmdError s .stateError := by
      obtain rfl | ⟨b, rfl⟩ := hi <;> exact exec_stateError hf
    exact ⟨_, _, ⟨hexec, rfl⟩, .inr rfl, rfl⟩
  obtain rfl | ⟨b, rfl⟩ := hi
  · exact ⟨_, _, ⟨exec_encFlush hf rfl, rfl⟩, .inl rfl, rfl⟩
  obtain ⟨buf, hbuf, -⟩ := bufStr_defined h.linked (h.buffer_present hf)
  have hexec := exec_encByte hf hbuf b
  cases hk : findCode s (buf ++ [b]) with
  | some k => exact ⟨_, _, ⟨hexec.trans (encodeByte_of_found hk), rfl⟩, .inl rfl, rfl⟩
  | none =>
    exact ⟨_, _, ⟨hexec.trans (encodeByte_of_absent hk), congrArg (· ++ [_]) (insertEntry_output ..)⟩, .inl rfl,
      insertEntry_err ..⟩

/-! ### The failures of the decoder (R201, R203, R205) -/

section Failures

variable {s : State} {c : Code}

/-- The condition of each cause of a failing `DEC_CODE c` (R201). -/
def FailsWith (s : State) (c : Code) (cause : ErrCause) : Prop :=
  (cause = .firstNotSeed ∧ s.fsm = .decFirst ∧ 256 ≤ c.toNat) ∨
  (cause = .unknownCode ∧ s.fsm = .decRun ∧ s.nextCode.toNat < c.toNat) ∨
  (cause = .extOverflow ∧ s.fsm = .decRun ∧ c.toNat = s.nextCode.toNat ∧ s.nextCode = s.params.capacity ∧
    s.prevExt.toNat = 2 ^ 32 - 1)

/-- `DEC_CODE c` is performed, or fails under the condition of its cause. -/
def TakenOrFails (s : State) (c : Code) : Prop :=
  (∃ t r, Responds (.decCode c) s r t ∧ r.status = .ok) ∨
  ∃ cause, exec (.decCode c) s = .next (failedState s cause c) ∧ FailsWith s c cause

theorem takenOrFails_of_decFirst (hf : s.fsm = .decFirst) : TakenOrFails s c := by
  obtain ⟨hseed, hother⟩ := firstCodeMustBeASeed s c hf
  obtain hc | hc := Nat.lt_or_ge c.toNat 256
  · exact .inl ⟨_, _, ⟨hseed hc, rfl⟩, rfl⟩
  · exact .inr ⟨_, hother hc, .inl ⟨rfl, hf, hc⟩⟩

/-- A frozen table takes the next code until `PREV_EXT` is full (R157, R158). -/
theorem takenOrFails_of_frozen (h : s.Inv) (hf : s.fsm = .decRun) (hc : c.toNat = s.nextCode.toNat)
    (hfull : s.nextCode = s.params.capacity) : TakenOrFails s c := by
  obtain ⟨x, y, -, hcount, hover⟩ := frozenRepairCountsOrOverflows s c h hf hfull (by rw [hc, hfull])
  by_cases hext : s.prevExt.toNat = 2 ^ 32 - 1
  · exact .inr ⟨_, hover hext, .inr (.inr ⟨rfl, hf, hc, hfull, hext⟩)⟩
  · exact .inl ⟨_, _, ⟨hcount hext, rfl⟩, rfl⟩

/-- A later code below, at, or above `NEXT_CODE` (R152, R153, R162). -/
theorem takenOrFails_of_decRun (h : s.Inv) (hf : s.fsm = .decRun) : TakenOrFails s c := by
  obtain hc | hc | hc := Nat.lt_trichotomy c.toNat s.nextCode.toNat
  · obtain ⟨x, y, t, -, ht, -, hframe⟩ := presentCodeIsOutputAndLearned s c h hf hc
    exact .inl ⟨t, _, ⟨ht, congrArg State.output hframe⟩, rfl⟩
  · by_cases hfull : s.nextCode = s.params.capacity
    · exact takenOrFails_of_frozen h hf hc hfull
    · obtain ⟨x, y, t, -, ht, -, hframe, -⟩ := repairedEntryIsLearnedAtItsCode s c h hf hc hfull
      exact .inl ⟨t, _, ⟨ht, congrArg State.output hframe⟩, rfl⟩
  · exact .inr ⟨_, codeAboveNextFails s c hf hc, .inr (.inl ⟨rfl, hf, hc⟩)⟩

/-- A failing `DEC_CODE` in a run that has not failed leaves `failedState` under the condition of its cause (R201, R203). -/
theorem decCode_fails (h : s.Inv) (hnf : s.fsm ≠ .decFailed) {t : State} {r : Response}
    (hr : Responds (.decCode c) s r t) (hst : r.status = .invalidStream) :
    ∃ cause, t = failedState s cause c ∧ FailsWith s c cause := by
  have htaken : TakenOrFails s c := by
    cases hf : s.fsm with
    | decFirst => exact takenOrFails_of_decFirst hf
    | decRun => exact takenOrFails_of_decRun h hf
    | decFailed => exact absurd hf hnf
    | idle | encRun =>
      have hm : StateErrorAt (.decCode c) s.fsm := by simp [StateErrorAt, hf]
      obtain ⟨-, rfl⟩ := hr.unique (Rejects.state hm).responds
      cases hst
  obtain ⟨u, q, hq, hok⟩ | ⟨cause, hexec, hcause⟩ := htaken
  · obtain ⟨-, rfl⟩ := hr.unique hq
    rw [hok] at hst
    cases hst
  · obtain ⟨ht, -⟩ := hr.unique ⟨hexec, rfl⟩
    exact ⟨cause, ht, hcause⟩

/-- Only a table reset clears `STATUS.ERR` (R37, R205). -/
theorem Writes.keeps_err {i : Instr} {s u : State} (hw : Writes i s u) (hi : ¬ IsTableReset i) (herr : s.err = true) :
    u.err = true := by
  cases hw with
  | tblReset => exact absurd (.inl rfl) hi
  | encStart => exact absurd (.inr (.inl rfl)) hi
  | decStart => exact absurd (.inr (.inr rfl)) hi
  | learn | emit | take => exact (insertEntry_err ..).trans herr
  | fail | endEmpty => rfl
  | nothing | extend | flush | first | count | endRun => exact herr

end Failures

/-- Settles O39: the empty stream records its cause, and `DEC_CODE` fails under the condition of its cause alone. -/
theorem failuresArePrecise : Obligations.FailuresArePrecise := by
  refine ⟨fun s hf => ?_, fun s t c r h hr hst hnf => decCode_fails h hnf hr hst⟩
  rw [exec_decEnd_of_decFirst hf, invalidStreamValue_eq]
  rfl

/-- Settles O40: the failed run repeats its failure, and each way a command can end keeps the flag or is a table reset. -/
theorem failureIsSticky : Obligations.FailureIsSticky := by
  refine ⟨fun s c hf => ?_, fun s hf => ?_, fun i s t ht herr hi => ?_⟩
  · rw [exec_decCode_of_decFailed hf, repeatFailure_eq]
  · rw [exec_decEnd_of_decFailed hf, returnFromFailure, repeatFailure_eq]
  · obtain ⟨u, r, hw, rfl⟩ := exec_completes ht
    exact hw.keeps_err hi herr

end Sys2Proof.Machine

/-! Resets and hazards (70_reset_and_hazards.md). -/

namespace Sys2Proof.Machine

/-! ### The free value's index is read by no command (R231, log entry 4) -/

section FreeIndex

variable {s : State} {n : Nat} {a b a' b' : Result}

/-- A state with another index into the free values of R231. -/
def State.withFreeIndex (s : State) (n : Nat) : State := { s with freeIndex := n }

/-- `b` is the result `a` with `n` for the index of its next state. -/
def Reindexed (n : Nat) (a b : Result) : Prop := b = mapNext (·.withFreeIndex n) a

theorem ite_reindexed {c : Prop} [Decidable c] (ht : Reindexed n a a') (he : Reindexed n b b') :
    Reindexed n (if c then a else b) (if c then a' else b') := by
  split
  · exact ht
  · exact he

theorem guarded_reindexed {g : Guarded} (h : Reindexed n a b) :
    Reindexed n (guarded g s a) (guarded g (s.withFreeIndex n) b) :=
  ite_reindexed h rfl

theorem withString_reindexed {k : Nat} {str : Option (List Byte)} {f g : List Byte → Result}
    (h : ∀ x, Reindexed n (f x) (g x)) : Reindexed n (withString k str f) (withString k str g) := by
  cases str with
  | none => rfl
  | some x => exact h x

theorem widthTrack_withFreeIndex (s : State) (n : Nat) :
    widthTrack (s.withFreeIndex n) = (widthTrack s).withFreeIndex n := by
  unfold widthTrack
  rw [apply_ite (State.withFreeIndex · n)]
  rfl

theorem insertEntry_withFreeIndex (s : State) (n : Nat) (p : Code) (x : Byte) :
    insertEntry (s.withFreeIndex n) p x = ((insertEntry s p x).1.withFreeIndex n, (insertEntry s p x).2) := by
  unfold insertEntry
  by_cases h : s.nextCode.toNat < s.params.capacity.toNat
  · have h' : (s.withFreeIndex n).nextCode.toNat < (s.withFreeIndex n).params.capacity.toNat := h
    rw [if_pos h, if_pos h']
    simp only [← widthTrack_withFreeIndex]
    rfl
  · have h' : ¬ (s.withFreeIndex n).nextCode.toNat < (s.withFreeIndex n).params.capacity.toNat := h
    rw [if_neg h, if_neg h']

theorem lookupResponse_reindexed {str : List Byte} :
    Reindexed n (lookupResponse s str) (lookupResponse (s.withFreeIndex n) str) := by
  have hfind : findCode (s.withFreeIndex n) str = findCode s str := findCode_congr rfl rfl str
  unfold lookupResponse
  rw [hfind]
  cases findCode s str <;> rfl

theorem execTblLearn_reindexed {p : Code} {x : Byte} :
    Reindexed n (execTblLearn p x s) (execTblLearn p x (s.withFreeIndex n)) := by
  refine guarded_reindexed (ite_reindexed ?_ rfl)
  rw [insertEntry_withFreeIndex]
  obtain ⟨u, k⟩ := insertEntry s p x
  cases k <;> rfl

theorem encodeByte_reindexed {x : Byte} {buf : List Byte} :
    Reindexed n (encodeByte s x buf) (encodeByte (s.withFreeIndex n) x buf) := by
  have hfind : findCode (s.withFreeIndex n) (buf ++ [x]) = findCode s (buf ++ [x]) := findCode_congr rfl rfl _
  unfold encodeByte
  rw [hfind, insertEntry_withFreeIndex]
  cases findCode s (buf ++ [x]) <;> rfl

theorem decodeEntry_reindexed {c : Code} {repair : Bool} {entry : List Byte} :
    Reindexed n (decodeEntry s c repair entry) (decodeEntry (s.withFreeIndex n) c repair entry) := by
  cases entry with
  | nil => rfl
  | cons x y =>
    simp only [decodeEntry, insertEntry_withFreeIndex]
    exact ite_reindexed rfl rfl

theorem decodeNext_reindexed {c : Code} : Reindexed n (decodeNext s c) (decodeNext (s.withFreeIndex n) c) :=
  ite_reindexed (withString_reindexed fun _ => decodeEntry_reindexed) <|
    ite_reindexed (ite_reindexed rfl (withString_reindexed fun _ => decodeEntry_reindexed)) rfl

theorem execDecCode_reindexed {c : Code} : Reindexed n (execDecCode c s) (execDecCode c (s.withFreeIndex n)) := by
  refine guarded_reindexed ?_
  have hf : (s.withFreeIndex n).fsm = s.fsm := rfl
  rw [hf]
  cases s.fsm with
  | decFailed => rfl
  | decFirst => exact ite_reindexed rfl rfl
  | idle | encRun | decRun => exact decodeNext_reindexed

theorem execDecEnd_reindexed : Reindexed n (execDecEnd s) (execDecEnd (s.withFreeIndex n)) := by
  refine guarded_reindexed ?_
  have hf : (s.withFreeIndex n).fsm = s.fsm := rfl
  rw [hf]
  cases s.fsm <;> rfl

theorem execRegRead_reindexed {r : Byte} : Reindexed n (execRegRead r s) (execRegRead r (s.withFreeIndex n)) := by
  have hval : regValue (s.withFreeIndex n) r.toNat = regValue s r.toNat := rfl
  unfold execRegRead
  rw [hval]
  cases regValue s r.toNat <;> rfl

theorem exec_reindexed {i : Instr} : Reindexed n (exec i s) (exec i (s.withFreeIndex n)) := by
  cases i with
  | tblReset | encStart | decStart => rfl
  | tblLookup x => exact lookupResponse_reindexed
  | tblLookupPrefix p x => exact ite_reindexed (withString_reindexed fun _ => lookupResponse_reindexed) rfl
  | tblLearn p x => exact execTblLearn_reindexed
  | tblResolve c => exact ite_reindexed (withString_reindexed fun _ => rfl) rfl
  | encByte x => exact guarded_reindexed (withString_reindexed fun _ => encodeByte_reindexed)
  | encFlush => exact guarded_reindexed rfl
  | decCode c => exact execDecCode_reindexed
  | decEnd => exact execDecEnd_reindexed
  | regRead r => exact execRegRead_reindexed

/-- A word is performed in the same way whatever free value comes next. -/
theorem performWord_reindexed {w : CommandWord} :
    Reindexed n (performWord w s) (performWord w (s.withFreeIndex n)) := by
  unfold performWord
  cases decode w with
  | ok i => exact exec_reindexed
  | error e => rfl

end FreeIndex

/-! ### The step with a reset (R230, R231), and that every step goes on (R244) -/

section Resets

variable {s t : State} {w : CommandWord}

/-- No word writes the parameters (R38, R39). -/
theorem performWord_params (ht : performWord w s = .next t) : t.params = s.params := by
  unfold performWord at ht
  split at ht
  · obtain ⟨hp, -⟩ := onlyTheseCommandsWrite _ s t ht
    exact hp
  · obtain rfl := cmdError_eq_next.mp ht
    rfl

/-- The two outcomes of a reset in flight: a hardware reset after the word, or one without it (R231). -/
theorem resetInFlight_cases (h : s.Inv) (w : CommandWord) :
    ∃ u, resetInFlight w s = .next (hardwareReset u) ∧ u.input = s.input ∧ u.params = s.params ∧
      (u.output = s.output ∨ ∃ v, performWord w s = .next v ∧ u.output = v.output) := by
  simp only [resetInFlight]
  split
  case isTrue =>
    obtain ⟨v, r, hv, -, hin, -⟩ := performWord_answers h w
    have hw : performWord w { s with freeIndex := s.freeIndex + 1 } = .next (v.withFreeIndex (s.freeIndex + 1)) :=
      performWord_reindexed.trans (congrArg _ hv)
    have hparams : v.params = s.params := performWord_params hv
    rw [hw]
    exact ⟨_, rfl, hin, hparams, .inr ⟨v, hv, rfl⟩⟩
  case isFalse => exact ⟨_, rfl, rfl, rfl, .inl rfl⟩

theorem takeEvent_safe (h : s.Inv) (e : HostEvent) : Safe (takeEvent e s) := by
  cases e with
  | command w =>
    obtain ⟨t, r, ht, -⟩ := performWord_answers h w
    exact ⟨t, ht⟩
  | reset => exact ⟨_, rfl⟩
  | resetInFlight w =>
    obtain ⟨u, hu, -⟩ := resetInFlight_cases h w
    exact ⟨_, hu⟩

/-- A step with an event waiting takes it (R62). -/
theorem step_event {e : HostEvent} {rest : List HostEvent} (hp : s.params.Legal) (hi : s.input = e :: rest) :
    step s = takeEvent e { s with input := rest } := by
  rw [step_of_legal hp, takeNext, hi]

end Resets

/-- Settles O17: with no event the block waits, and no event stops it. -/
theorem everyStepGoesOn : Obligations.EveryStepGoesOn := by
  intro s h
  cases hi : s.input with
  | nil => exact ⟨s, step_idle h.params_legal hi⟩
  | cons e rest =>
    rw [step_event h.params_legal hi]
    exact takeEvent_safe (h.streams rest s.output s.freeIndex) e

/-- Settles O12: both outcomes end in a hardware reset, and the word performed is the one a step performs. -/
theorem resetInFlightPerformsAllOrNothing : Obligations.ResetInFlightPerformsAllOrNothing := by
  intro s w rest h hi
  obtain ⟨u, hu, hin, hparams, hout⟩ := resetInFlight_cases (h.streams rest s.output s.freeIndex) w
  refine ⟨_, (step_event h.params_legal hi).trans hu, hin, hparams, rfl, rfl, rfl, rfl, rfl, rfl, rfl, rfl, rfl, rfl, ?_⟩
  obtain hsame | ⟨v, hv, hperformed⟩ := hout
  · exact .inl hsame
  · have hstep : step { s with input := .command w :: rest } = .next v := by
      rw [step_command (s := { s with input := .command w :: rest }) h.params_legal rfl, hv]
    exact .inr ⟨v, hstep, hperformed⟩

/-- Settles O10: the step is `hardwareReset`, which writes constants, and `NEXT_CODE` at 256 leaves the seeds alone. -/
theorem hardwareResetValues : Obligations.HardwareResetValues := by
  intro s rest hp hi
  exact ⟨_, step_event hp hi, rfl, rfl, rfl, rfl, rfl, rfl, rfl, rfl, rfl, rfl, rfl, strOf_of_nextCode_eq rfl⟩

/-! ### The length of an output (R24, R244) -/

section OutputLength

variable {s t : State} {c : Code} {r : Response}

/-- No string of the table is longer than `CAPACITY - 254` (R24). -/
theorem State.Inv.strOf_length_le (h : s.Inv) {k : Nat} {x : List Byte} (hx : strOf s k = some x) :
    x.length ≤ s.params.capacity.toNat - 254 := by
  have hk : k < s.nextCode.toNat := present_of_strOf hx
  obtain ⟨hmin, hmax⟩ := h.next_range
  obtain ⟨hseed, hlearned⟩ := strOf_length h.linked hx
  obtain h256 | h256 := Nat.lt_or_ge k 256
  · have := hseed h256
    simp only [Config.seedCount] at hmin
    omega
  · have := hlearned h256
    omega

/-- A bound on the data of the response that `DEC_CODE` is seen to give bounds the data of its every response. -/
theorem Responds.data_le {n : Nat} {q : Response} {u : State} (hr : Responds (.decCode c) s r t)
    (hexec : exec (.decCode c) s = .next u) (ho : u.output = s.output ++ [q]) (hq : q.data.length ≤ n) :
    r.data.length ≤ n := by
  obtain ⟨-, rfl⟩ := hr.unique ⟨hexec, ho⟩
  exact hq

/-- A seed is one byte, and a failure none (R155). -/
theorem data_le_of_decFirst (hf : s.fsm = .decFirst) (hr : Responds (.decCode c) s r t) : r.data.length ≤ 1 := by
  obtain ⟨hseed, hother⟩ := firstCodeMustBeASeed s c hf
  obtain hc | hc := Nat.lt_or_ge c.toNat 256
  · exact hr.data_le (hseed hc) rfl (Nat.le_refl 1)
  · exact hr.data_le (hother hc) rfl (Nat.zero_le 1)

/-- A repair below capacity outputs the previous string and one byte; on a frozen table `PREV_EXT` bytes stand between
(R153, R157). -/
theorem data_le_of_repair (h : s.Inv) (hf : s.fsm = .decRun) (hc : c.toNat = s.nextCode.toNat)
    (hr : Responds (.decCode c) s r t) : r.data.length ≤ s.params.capacity.toNat - 254 + s.prevExt.toNat + 1 := by
  by_cases hfull : s.nextCode = s.params.capacity
  · obtain ⟨x, y, hstr, hcount, hover⟩ := frozenRepairCountsOrOverflows s c h hf hfull (by rw [hc, hfull])
    have hlen := h.strOf_length_le hstr
    by_cases hext : s.prevExt.toNat = 2 ^ 32 - 1
    · exact hr.data_le (hover hext) rfl (Nat.zero_le _)
    · exact hr.data_le (hcount hext) rfl (by simp [bytesResponse] at hlen ⊢; omega)
  · obtain ⟨x, y, u, hstr, hu, -, hframe, -⟩ := repairedEntryIsLearnedAtItsCode s c h hf hc hfull
    have hlen := h.strOf_length_le hstr
    exact hr.data_le hu (congrArg State.output hframe) (by simp [bytesResponse] at hlen ⊢; omega)

/-- A later code below, at, or above `NEXT_CODE` (R152, R153, R162). -/
theorem data_le_of_decRun (h : s.Inv) (hf : s.fsm = .decRun) (hr : Responds (.decCode c) s r t) :
    r.data.length ≤ s.params.capacity.toNat - 254 + s.prevExt.toNat + 1 := by
  obtain hc | hc | hc := Nat.lt_trichotomy c.toNat s.nextCode.toNat
  · obtain ⟨x, y, u, hstr, hu, -, hframe⟩ := presentCodeIsOutputAndLearned s c h hf hc
    have hlen := h.strOf_length_le hstr
    exact hr.data_le hu (congrArg State.output hframe) (by simp only [bytesResponse]; omega)
  · exact data_le_of_repair h hf hc hr
  · exact hr.data_le (codeAboveNextFails s c hf hc) rfl (Nat.zero_le _)

end OutputLength

/-- Settles O41, one case per state of the FSM; only `DEC_RUN` outputs more than a byte. -/
theorem outputLengthIsBounded : Obligations.OutputLengthIsBounded := by
  intro s t c r h hr
  cases hf : s.fsm with
  | idle => exact hr.data_le (exec_decCode_stateError (.inl hf) c) rfl (Nat.zero_le _)
  | encRun => exact hr.data_le (exec_decCode_stateError (.inr hf) c) rfl (Nat.zero_le _)
  | decFirst => exact (data_le_of_decFirst hf hr).trans (Nat.le_add_left ..)
  | decRun => exact data_le_of_decRun h hf hr
  | decFailed =>
    exact hr.data_le ((exec_decCode_of_decFailed hf c).trans (repeatFailure_eq s)) rfl (Nat.zero_le _)

end Sys2Proof.Machine
